-- ==== Sys2Proof/Word.lean ====
section
/-! DEFINITION. The words of the block (R6, R8, R9): a 16-bit word, an 8-bit byte, a 3-bit register number and the
3-bit condition mask. Arithmetic on them is `BitVec`'s, which wraps modulo 2^16 as R9 says. -/

namespace Sys2Proof

/-- A 16-bit word: a register, an address, a memory cell (R6). -/
abbrev Word := BitVec 16

/-- An 8-bit byte: a console byte, a trap vector, a byte of the image. -/
abbrev Byte := BitVec 8

/-- The number of a general register, R0 to R7 (R21): a 3-bit field of an instruction. -/
abbrev RegIdx := BitVec 3

/-- Condition flags, or the mask a BR compares with them: N is bit 2, Z bit 1, P bit 0 (R27). -/
abbrev Cond := BitVec 3

end Sys2Proof
end

