-- ==== Sys2Proof/Config.lean ====
section
/-! DEFINITION. What the spec leaves to the implementation: the parameters of R7, and the open values that no
proof can see: the abort's exit status and the console's answers to polls. The recommended values of the parameters stand in Sys2Proof/Machine/Defaults.lean. -/

namespace Sys2Proof

/-- The parameters the model takes as arguments (R7). They are fixed for a machine: no step changes them. Every
value is modelled; the values the spec recommends are `Machine.recommended`. -/
structure Params where
  /-- BOOT_PC: the PC at reset (R38). -/
  bootPc : Word
  /-- KBSR_ADDR: the keyboard-status cell (R35). -/
  kbsrAddr : Word
  /-- KBDR_ADDR: the keyboard-data cell (R36). -/
  kbdrAddr : Word
  /-- TV_GETC: the trap vector of character input (R230). -/
  tvGetc : Byte
  /-- TV_OUT: the trap vector of character output (R230). -/
  tvOut : Byte
  /-- TV_PUTS: the trap vector of string output (R230). -/
  tvPuts : Byte
  /-- TV_PUTSP: the trap vector of packed-string output (R230). -/
  tvPutsp : Byte
  /-- TV_HALT: the trap vector of HALT (R230). -/
  tvHalt : Byte
  /-- STRICT_FIXED_BITS: fault on words whose fixed bits are not canonical (R108). -/
  strictFixedBits : Bool
  /-- JSRR_LINK_FIRST: JSRR reads its base register after writing R7 (R185). -/
  jsrrLinkFirst : Bool
  deriving DecidableEq, Repr

/-- The constraints of R7 on the parameters: the two keyboard cells differ and the five trap vectors are distinct. -/
def Params.wf (p : Params) : Bool :=
  decide (p.kbsrAddr ≠ p.kbdrAddr) &&
    decide [p.tvGetc, p.tvOut, p.tvPuts, p.tvPutsp, p.tvHalt].Nodup

/-- Free value: one less than ABORT_STATUS (R7, R284). The spec gives no value, only that the status is not zero. -/
opaque Config.abortStatusLessOne : Nat

/-- ABORT_STATUS (R7): the exit status of an aborted run, open but not zero. -/
def Config.abortStatus : Nat := Config.abortStatusLessOne + 1

/-- Free value: the answer of the poll number `n`, where State's list of answers has none left. R281: "a draw of the
environment, under no law, at each poll" (log 6). -/
opaque Config.pollDraw (n : Nat) : Option Byte

end Sys2Proof
end

