-- ==== Sys2Proof/Machine/Defaults.lean ====
section
/-! DEFINITION. The values the spec recommends for its parameters (R7), and the values the model names for the
registers whose reset value the spec leaves open (R37, R39, R40). -/

namespace Sys2Proof.Machine

/-- The recommended parameters (R7). PRESUMED: the addresses, vectors and boot address are the LC-3 family's, as R7
marks them; the two settings are the spec's defaults (log 1; unsafe at these values, so results are stated for every
`Params`). -/
def recommended : Params where
  bootPc := 0x3000#16
  kbsrAddr := 0xFE00#16
  kbdrAddr := 0xFE02#16
  tvGetc := 0x20#8
  tvOut := 0x21#8
  tvPuts := 0x22#8
  tvPutsp := 0x24#8
  tvHalt := 0x25#8
  strictFixedBits := false
  jsrrLinkFirst := true

/-- The registers R0 to R7 that `State.reset` takes. DESIGN CHOICE: R37 gives no value; zero (log 2; unsafe). -/
def resetRegs : Vector Word 8 := Vector.replicate 8 0#16

/-- The condition flags that `State.reset` takes. DESIGN CHOICE: R39 gives no value; b000 (log 3; unsafe). -/
def resetCond : Cond := 0#3

/-- COUNT in `State.reset`. DESIGN CHOICE: R40 gives no value; zero (log 4; unsafe, but no step reads COUNT). -/
def resetCount : Word := 0#16

end Sys2Proof.Machine
end

