-- ==== Sys2Proof/Syntax.lean ====
section
/-! DEFINITION. The instructions: one constructor per row of spec/opcode_table.json. Operands are the raw fields of
R101; the instruction that uses a field extends it (R102, R103). -/

namespace Sys2Proof

/-- The instruction set (R1, R107). `d` is a destination register, `s` and `t` are source registers, `b` a base
register. The rows RET, GETC, OUT, PUTS, PUTSP and HALT are other names of words of JMP and TRAP; they have
constructors of their own, and `Instr.wf` keeps the two spellings apart (log 13). -/
inductive Instr where
  /-- BR (R181): branch if the mask and COND share a bit. -/
  | br (nzp : Cond) (off : BitVec 9)
  /-- ADD, register mode (R162). -/
  | addReg (d s t : RegIdx)
  /-- ADD, immediate mode (R163). -/
  | addImm (d s : RegIdx) (imm : BitVec 5)
  /-- LD (R201). -/
  | ld (d : RegIdx) (off : BitVec 9)
  /-- ST (R204). -/
  | st (s : RegIdx) (off : BitVec 9)
  /-- JSR (R184). -/
  | jsr (off : BitVec 11)
  /-- JSRR (R185). -/
  | jsrr (b : RegIdx)
  /-- AND, register mode (R164). -/
  | andReg (d s t : RegIdx)
  /-- AND, immediate mode (R165). -/
  | andImm (d s : RegIdx) (imm : BitVec 5)
  /-- LDR (R206). -/
  | ldr (d b : RegIdx) (off : BitVec 6)
  /-- STR (R207). -/
  | str (s b : RegIdx) (off : BitVec 6)
  /-- Opcode 8, RTI in LC-3 naming, a no-op here (R260). -/
  | rti
  /-- NOT (R166). -/
  | not (d s : RegIdx)
  /-- LDI (R202). -/
  | ldi (d : RegIdx) (off : BitVec 9)
  /-- STI (R205). -/
  | sti (s : RegIdx) (off : BitVec 9)
  /-- JMP (R182). -/
  | jmp (b : RegIdx)
  /-- RET (R183): the words of JMP with base R7. -/
  | ret
  /-- Opcode 13, reserved, a no-op (R261). -/
  | reserved
  /-- LEA (R203). -/
  | lea (d : RegIdx) (off : BitVec 9)
  /-- TRAP (R231). -/
  | trap (vect : Byte)
  /-- GETC (R232): TRAP with the vector TV_GETC. -/
  | getc
  /-- OUT (R233): TRAP with the vector TV_OUT. -/
  | out
  /-- PUTS (R234): TRAP with the vector TV_PUTS. -/
  | puts
  /-- PUTSP (R236): TRAP with the vector TV_PUTSP. -/
  | putsp
  /-- HALT (R240): TRAP with the vector TV_HALT. -/
  | halt
  deriving DecidableEq, Repr

end Sys2Proof
end

