-- ==== Sys2Proof/WellFormed.lean ====
section
/-! DEFINITION. Which terms of `Instr` are instructions the decoder can give. Every operand has its field's width by
its type, so the only checks are those that keep an alias and the instruction it abbreviates apart. -/

namespace Sys2Proof

/-- The five handled vectors (R230). -/
def Params.handledVectors (p : Params) : List Byte :=
  [p.tvGetc, p.tvOut, p.tvPuts, p.tvPutsp, p.tvHalt]

/-- A JMP through R7 is spelt RET (R183), and a TRAP with a handled vector is spelt by its handler's name (R138,
R139). Every other term is well formed. -/
def Instr.wf (p : Params) : Instr → Bool
  | .jmp b => decide (b ≠ 7#3)
  | .trap v => decide (v ∉ p.handledVectors)
  | .br _ _ | .addReg _ _ _ | .addImm _ _ _ | .ld _ _ | .st _ _ | .jsr _ | .jsrr _ | .andReg _ _ _
  | .andImm _ _ _ | .ldr _ _ _ | .str _ _ _ | .rti | .not _ _ | .ldi _ _ | .sti _ _ | .ret | .reserved
  | .lea _ _ | .getc | .out | .puts | .putsp | .halt => true

end Sys2Proof
end

