-- ==== Sys2Proof/Decode.lean ====
section
/-! DEFINITION. The decoder (R100 to R108), then the encoder (R104, R110). Every instruction is one 16-bit word. -/

namespace Sys2Proof

/-- The raw fields the decoder cuts from every word, whatever its opcode (R101, R102). None is extended. -/
structure Fields where
  opcode : BitVec 4
  r0 : RegIdx
  r1 : RegIdx
  r2 : RegIdx
  immSel : Bool
  imm5 : BitVec 5
  nzp : Cond
  off9 : BitVec 9
  longSel : Bool
  off11 : BitVec 11
  off6 : BitVec 6
  ones6 : BitVec 6
  trapvect8 : Byte
  deriving DecidableEq, Repr

/-- Field extraction (R101): each field at its offset and width. PRESUMED: all positions but the opcode's are the
LC-3 convention the spec takes (log 5). -/
def fieldsOf (w : Word) : Fields where
  opcode := w.extractLsb' 12 4
  r0 := w.extractLsb' 9 3
  r1 := w.extractLsb' 6 3
  r2 := w.extractLsb' 0 3
  immSel := w.getLsbD 5
  imm5 := w.extractLsb' 0 5
  nzp := w.extractLsb' 9 3
  off9 := w.extractLsb' 0 9
  longSel := w.getLsbD 11
  off11 := w.extractLsb' 0 11
  off6 := w.extractLsb' 0 6
  ones6 := w.extractLsb' 0 6
  trapvect8 := w.extractLsb' 0 8

/-- The one-hot dispatch vector `sel` (R106): bit k is set exactly when the opcode is k. -/
def dispatchVector (w : Word) : BitVec 16 :=
  1#16 <<< (fieldsOf w).opcode.toNat

/-- The instruction a TRAP word selects: a handled vector selects its handler by name, in the order of R231; any
other is a TRAP with that vector. -/
def decodeTrap (p : Params) (v : Byte) : Instr :=
  if v = p.tvGetc then .getc
  else if v = p.tvOut then .out
  else if v = p.tvPuts then .puts
  else if v = p.tvPutsp then .putsp
  else if v = p.tvHalt then .halt
  else .trap v

/-- The dispatch of the opcode map (R107): each of the sixteen opcode values has exactly one handler, so the
dispatch is total. The last pattern is opcode 15, the one value left. -/
def dispatch (p : Params) (f : Fields) : Instr :=
  match f.opcode with
  | 0#4 => .br f.nzp f.off9
  | 1#4 => if f.immSel then .addImm f.r0 f.r1 f.imm5 else .addReg f.r0 f.r1 f.r2
  | 2#4 => .ld f.r0 f.off9
  | 3#4 => .st f.r0 f.off9
  | 4#4 => if f.longSel then .jsr f.off11 else .jsrr f.r1
  | 5#4 => if f.immSel then .andImm f.r0 f.r1 f.imm5 else .andReg f.r0 f.r1 f.r2
  | 6#4 => .ldr f.r0 f.r1 f.off6
  | 7#4 => .str f.r0 f.r1 f.off6
  | 8#4 => .rti
  | 9#4 => .not f.r0 f.r1
  | 10#4 => .ldi f.r0 f.off9
  | 11#4 => .sti f.r0 f.off9
  | 12#4 => if f.r1 = 7#3 then .ret else .jmp f.r1
  | 13#4 => .reserved
  | 14#4 => .lea f.r0 f.off9
  | _ => decodeTrap p f.trapvect8

/-- The fixed bits of the word have their canonical values (R104, R108): bits 4..3 of ADD and AND in register mode,
bits 10..9 and 5..0 of JSRR, bits 11..9 and 5..0 of JMP, bits 5..0 of NOT, bits 11..8 of TRAP. -/
def canonical (w : Word) : Bool :=
  let f := fieldsOf w
  match f.opcode with
  | 1#4 | 5#4 => f.immSel || w.extractLsb' 3 2 == 0#2
  | 4#4 => f.longSel || (w.extractLsb' 9 2 == 0#2 && f.ones6 == 0#6)
  | 9#4 => f.ones6 == 0x3F#6
  | 12#4 => f.r0 == 0#3 && f.ones6 == 0#6
  | 15#4 => w.extractLsb' 8 4 == 0#4
  | _ => true

/-- Why the decoder gives a word no instruction. -/
inductive DecodeError where
  /-- Raised by `decode` under STRICT_FIXED_BITS for a word whose fixed bits are not canonical (R108); the step turns
  it into Faulted(NonCanonicalEncoding). Safe: the spec names this fault. -/
  | nonCanonicalEncoding
  deriving DecidableEq, Repr

/-- The decoder (R106, R108, R120): total on every word. With STRICT_FIXED_BITS false it gives every word an
instruction; with it true, words with non-canonical fixed bits are rejected by name, before dispatch. -/
def decode (p : Params) (w : Word) : Except DecodeError Instr :=
  if p.strictFixedBits && !canonical w then .error .nonCanonicalEncoding
  else .ok (dispatch p (fieldsOf w))

/-- The decoder with the recommended parameters, on a word numbered as spec/opcode_table.json numbers it: the
instruction is one word (R100), so bits above `nbits` are zero and no instruction is longer than 16 bits. -/
def decodeTableWord (nbits w : Nat) : Option Instr :=
  if nbits ≤ 16 then (decode Machine.recommended (BitVec.ofNat 16 (w % 2 ^ nbits))).toOption else none

/-! ### The encoder -/

/-- The canonical word of an instruction, bit 15 on the left, after the formats of R104. -/
def encode (p : Params) : Instr → Word
  | .br nzp off => 0b0000#4 ++ nzp ++ off
  | .addReg d s t => 0b0001#4 ++ d ++ s ++ 0b000#3 ++ t
  | .addImm d s imm => 0b0001#4 ++ d ++ s ++ 0b1#1 ++ imm
  | .ld d off => 0b0010#4 ++ d ++ off
  | .st s off => 0b0011#4 ++ s ++ off
  | .jsr off => 0b01001#5 ++ off
  | .jsrr b => 0b0100000#7 ++ b ++ 0b000000#6
  | .andReg d s t => 0b0101#4 ++ d ++ s ++ 0b000#3 ++ t
  | .andImm d s imm => 0b0101#4 ++ d ++ s ++ 0b1#1 ++ imm
  | .ldr d b off => 0b0110#4 ++ d ++ b ++ off
  | .str s b off => 0b0111#4 ++ s ++ b ++ off
  | .rti => 0b1000000000000000#16
  | .not d s => 0b1001#4 ++ d ++ s ++ 0b111111#6
  | .ldi d off => 0b1010#4 ++ d ++ off
  | .sti s off => 0b1011#4 ++ s ++ off
  | .jmp b => 0b1100000#7 ++ b ++ 0b000000#6
  | .ret => 0b1100000111000000#16
  | .reserved => 0b1101000000000000#16
  | .lea d off => 0b1110#4 ++ d ++ off
  | .trap v => 0b11110000#8 ++ v
  | .getc => 0b11110000#8 ++ p.tvGetc
  | .out => 0b11110000#8 ++ p.tvOut
  | .puts => 0b11110000#8 ++ p.tvPuts
  | .putsp => 0b11110000#8 ++ p.tvPutsp
  | .halt => 0b11110000#8 ++ p.tvHalt

/-- A field descriptor (R101): its width and its offset in the word. -/
structure FieldDesc where
  width : Nat
  offset : Nat
  deriving DecidableEq, Repr

/-- The mask of a field in the word (R101). -/
def fieldMask (f : FieldDesc) : Word :=
  BitVec.ofNat 16 ((2 ^ f.width - 1) * 2 ^ f.offset)

/-- The raw value of a field (R101): the word shifted down by the offset and masked to the width. -/
def fieldRaw (f : FieldDesc) (w : Word) : Word :=
  (w >>> f.offset) &&& BitVec.ofNat 16 (2 ^ f.width - 1)

/-- The operand fields, under the names of R101; the opcode's bits are not among them, since `encode` places them
last (R110). -/
inductive FieldName where
  | r0 | r1 | r2 | immSel | imm5 | nzp | off9 | longSel | off11 | off6 | ones6 | trapvect8
  deriving DecidableEq, Repr

/-- The field descriptors of R101. -/
def FieldName.desc : FieldName → FieldDesc
  | .r0 => { width := 3, offset := 9 }
  | .r1 => { width := 3, offset := 6 }
  | .r2 => { width := 3, offset := 0 }
  | .immSel => { width := 1, offset := 5 }
  | .imm5 => { width := 5, offset := 0 }
  | .nzp => { width := 3, offset := 9 }
  | .off9 => { width := 9, offset := 0 }
  | .longSel => { width := 1, offset := 11 }
  | .off11 => { width := 11, offset := 0 }
  | .off6 => { width := 6, offset := 0 }
  | .ones6 => { width := 6, offset := 0 }
  | .trapvect8 => { width := 8, offset := 0 }

/-- `layout(op)`: the fields of an opcode in the declared order of R105. -/
def layout (op : BitVec 4) : List FieldName :=
  match op with
  | 0#4 => [.nzp, .off9]
  | 1#4 | 5#4 => [.r0, .r1, .immSel, .r2, .imm5]
  | 2#4 | 3#4 | 10#4 | 11#4 | 14#4 => [.r0, .off9]
  | 4#4 => [.longSel, .off11, .r1]
  | 6#4 | 7#4 => [.r0, .r1, .off6]
  | 9#4 => [.r0, .r1, .ones6]
  | 12#4 => [.r1]
  | 15#4 => [.trapvect8]
  | _ => []

/-- The field values a caller of `encode` supplies (R110), negative ones among them (T403): a field that is not
listed is skipped. -/
abbrev FieldValues := List (FieldName × Int)

/-- One field accumulated into the word (R110): a skipped field leaves its bits alone, any other value is masked to
the width, shifted to the offset and ORed in. -/
def placeField (vals : FieldValues) (w : Word) (n : FieldName) : Word :=
  match vals.lookup n with
  | none => w
  | some v => w ||| (BitVec.ofInt 16 v &&& BitVec.ofNat 16 (2 ^ n.desc.width - 1)) <<< n.desc.offset

/-- `encode(op, fields)` of R110: the fields of the opcode's layout in declared order, then the opcode in bits 15..12.
A value for a field outside the layout is not looked at. -/
def encodeFields (op : BitVec 4) (vals : FieldValues) : Word :=
  (layout op).foldl (placeField vals) 0#16 ||| op.zeroExtend 16 <<< 12

/-- The mnemonics that name an opcode and its layout, aliases among them (R107, R110, R139). DESIGN CHOICE: which
spellings are keys is open but for those the spec names; opcodes 8 and 13 and the trap names have none (log 20). -/
def keyTable : List (String × BitVec 4) :=
  [("BR", 0), ("BRn", 0), ("BRz", 0), ("BRp", 0), ("BRnz", 0), ("BRnp", 0), ("BRzp", 0), ("BRnzp", 0), ("ADD", 1),
    ("LD", 2), ("ST", 3), ("JSR", 4), ("JSRR", 4), ("AND", 5), ("LDR", 6), ("STR", 7), ("NOT", 9), ("LDI", 10),
    ("STI", 11), ("JMP", 12), ("RET", 12), ("LEA", 14), ("TRAP", 15)]

/-- The key of a call of `encode`: "A mnemonic and a numeric opcode are both accepted keys" (R110). -/
inductive EncodeKey where
  | opcode (op : BitVec 4)
  | mnemonic (name : String)
  deriving DecidableEq, Repr

/-- The opcode a key names, if it names one. -/
def EncodeKey.resolve : EncodeKey → Option (BitVec 4)
  | .opcode op => some op
  | .mnemonic name => keyTable.lookup name

/-- `encode(opcode_or_mnemonic, fields)` (R110). -/
def encodeCall (key : EncodeKey) (vals : FieldValues) : Option Word :=
  key.resolve.map fun op => encodeFields op vals

/-- The opcode of an instruction (R107). -/
def opcodeOf : Instr → BitVec 4
  | .br _ _ => 0
  | .addReg _ _ _ | .addImm _ _ _ => 1
  | .ld _ _ => 2
  | .st _ _ => 3
  | .jsr _ | .jsrr _ => 4
  | .andReg _ _ _ | .andImm _ _ _ => 5
  | .ldr _ _ _ => 6
  | .str _ _ _ => 7
  | .rti => 8
  | .not _ _ => 9
  | .ldi _ _ => 10
  | .sti _ _ => 11
  | .jmp _ | .ret => 12
  | .reserved => 13
  | .lea _ _ => 14
  | .trap _ | .getc | .out | .puts | .putsp | .halt => 15

/-- The field values an assembler supplies for an instruction, in declared order; a field the form does not use is
not supplied (R135 to R139). -/
def fieldValues (p : Params) : Instr → FieldValues
  | .br nzp off => [(.nzp, nzp.toNat), (.off9, off.toInt)]
  | .addReg d s t | .andReg d s t => [(.r0, d.toNat), (.r1, s.toNat), (.r2, t.toNat)]
  | .addImm d s imm | .andImm d s imm => [(.r0, d.toNat), (.r1, s.toNat), (.immSel, 1), (.imm5, imm.toInt)]
  | .ld r off | .st r off | .ldi r off | .sti r off | .lea r off => [(.r0, r.toNat), (.off9, off.toInt)]
  | .jsr off => [(.longSel, 1), (.off11, off.toInt)]
  | .jsrr b => [(.longSel, 0), (.r1, b.toNat)]
  | .ldr r b off | .str r b off => [(.r0, r.toNat), (.r1, b.toNat), (.off6, off.toInt)]
  | .not d s => [(.r0, d.toNat), (.r1, s.toNat), (.ones6, 0x3F)]
  | .jmp b => [(.r1, b.toNat)]
  | .ret => [(.r1, 7)]
  | .trap v => [(.trapvect8, v.toNat)]
  | .getc => [(.trapvect8, p.tvGetc.toNat)]
  | .out => [(.trapvect8, p.tvOut.toNat)]
  | .puts => [(.trapvect8, p.tvPuts.toNat)]
  | .putsp => [(.trapvect8, p.tvPutsp.toNat)]
  | .halt => [(.trapvect8, p.tvHalt.toNat)]
  | .rti | .reserved => []

end Sys2Proof
end

