-- ==== Sys2Proof/Machine/Flags.lean ====
section
/-! DEFINITION. The ALU's three functions (R160) and the condition-flag logic (R28), which is separate from them. -/

namespace Sys2Proof.Machine

/-- The ALU's function select (R160). -/
inductive AluFn where
  | add
  | and
  | not
  deriving DecidableEq, Repr

/-- The ALU (R160, R161): 16 bits wide, modulo 2^16, with no carry or overflow output. NOT does not use `b`. -/
def alu (f : AluFn) (a b : Word) : Word :=
  match f with
  | .add => a + b
  | .and => a &&& b
  | .not => ~~~a

/-- The flags of a result (R28): Z if it is zero, N if its bit 15 is set, P otherwise; exactly one bit is set. -/
def flagsOf (v : Word) : Cond :=
  if v = 0#16 then 0b010#3 else if v.getLsbD 15 then 0b100#3 else 0b001#3

end Sys2Proof.Machine
end

