-- ==== Sys2Proof/Machine/Operands.lean ====
section
/-! DEFINITION. How a raw field becomes an operand (R10, R103). -/

namespace Sys2Proof.Machine

/-- `sext_N` (R10): the most significant bit of the N-bit field is replicated up to bit 15. -/
def sext {n : Nat} (v : BitVec n) : Word :=
  v.signExtend 16

/-- `zext_8` (R10): a byte in the low 8 bits, zeros above. -/
def zext8 (b : Byte) : Word :=
  b.zeroExtend 16

/-- The low byte of a word, `c[7:0]` (R236). -/
def lowByte (w : Word) : Byte :=
  w.extractLsb' 0 8

/-- The high byte of a word, `c[15:8]` (R236). -/
def highByte (w : Word) : Byte :=
  w.extractLsb' 8 8

end Sys2Proof.Machine
end

