-- ==== Sys2Proof/Machine/State.lean ====
section
/-! DEFINITION. The state of the block (R20), the ways a step can stop, and the state after reset (R300). -/

namespace Sys2Proof.Machine

/-- Memory (R60): the cells that do not hold zero, as pairs of an address below 65536 and its 16-bit word, addresses
strictly rising. A cell that is not listed holds 0, its value at creation (R42). The block's cell is a word and no
byte has an address, so the list holds words (log 11). -/
abbrev Memory := List (Nat × Word)

/-- Why the run state is Faulted (R271), with what the fault records. -/
inductive FaultReason where
  /-- Raised by TRAP for a vector without a handler (R237): the vector and the address of the TRAP. -/
  | unknownTrapVector (vect : Byte) (at_ : Word)
  /-- Raised by the step under STRICT_FIXED_BITS for a word with non-canonical fixed bits (R108): the word and its
  address. -/
  | nonCanonicalEncoding (word : Word) (at_ : Word)
  deriving DecidableEq, Repr

/-- The run state (R31). Halted, Faulted and Aborted are terminal. -/
inductive Run where
  /-- Instructions execute. -/
  | running
  /-- Set only by the HALT trap (R240). -/
  | halted
  /-- Set by a model fault (R272). -/
  | faulted (reason : FaultReason)
  /-- Set when the host interrupts a blocked character input (R284). -/
  | aborted
  deriving DecidableEq, Repr

/-- What a blocking read of the console ends with (R282, R284). -/
inductive ReadAnswer where
  /-- The console supplies one byte (R282). -/
  | byte (b : Byte)
  /-- The host asserts abort while the read waits (R284). -/
  | abort
  deriving DecidableEq, Repr

/-- The state of the block: the architectural state of R20, the GETC in progress of R282, and the model's inputs,
which no field of the spec's state holds: the console's future answers and the parameters. -/
structure State where
  /-- R0 to R7 (R21). -/
  regs : Vector Word 8
  /-- PC (R25). -/
  pc : Word
  /-- COND (R27). -/
  cond : Cond
  /-- COUNT, the unused counter register (R32): no instruction reads or writes it. -/
  count : Word
  /-- The run state (R31). -/
  run : Run
  /-- M[0..65535] (R60), the keyboard cells KBSR and KBDR among them (R35, R36). -/
  mem : Memory
  /-- The console output produced so far, oldest first (R43, R283). -/
  trace : List Word
  /-- A GETC waits for its byte (R232, R282): its fetch is done, its read is not (log 7). -/
  inputWait : Bool
  /-- Free value, the model's own field: what the console will answer to the next polls, oldest first (R281). When
  the list is empty each poll is a draw, `Config.pollDraw` (log 6). -/
  pollAnswers : List (Option Byte)
  /-- The model's own field: how many polls there have been, the number of the next poll's draw (log 6). -/
  pollCount : Nat
  /-- Free value, the model's own field: what will end the next blocking reads, oldest first (R282, R284). When the
  list is empty the read waits (log 6). -/
  readAnswers : List ReadAnswer
  /-- The parameters of R7, the model's own field: no step changes them (log 1). -/
  params : Params
  deriving DecidableEq, Repr

/-- How a step can fail to give a next state. -/
inductive Fault where
  /-- Raised by PUTS and PUTSP for a walk that reads 65536 words without its terminator (R235, R288): the step does
  not end on the hardware. Safe: no claim that the run ends can be proved of it. -/
  | hang
  /-- Raised by the step when the run state is not Running: "no step is taken from them" (R31). Safe: there is no
  step of the hardware to disagree with. -/
  | stopped (run : Run)
  deriving DecidableEq, Repr

/-- How a step can give an instruction no meaning. -/
inductive Refusal where
  /-- Raised by `exec` for an instruction that has no meaning in the model. Safe: nothing is proved of it. No arm of
  `exec` raises it. -/
  | notModelled (mnemonic : String)
  deriving DecidableEq, Repr

/-- The reset state (R300) before any image is loaded, for every value the spec leaves open: the parameters (R7),
`reg_init` and `cond_init` (R37, R39), COUNT (R40), and the console's answers to come (R281, R282). -/
def State.powerOn (p : Params) (regInit : Vector Word 8) (condInit : Cond) (countInit : Word)
    (polls : List (Option Byte)) (reads : List ReadAnswer) : State where
  regs := regInit
  pc := p.bootPc
  cond := condInit
  count := countInit
  run := .running
  mem := []
  trace := []
  inputWait := false
  pollAnswers := polls
  pollCount := 0
  readAnswers := reads
  params := p

/-- The machine right after reset: the one case of `State.powerOn` with the recommended parameters and the values
the model names for what the spec leaves open (logs 1 to 4 and 6). -/
def State.reset : State :=
  .powerOn recommended resetRegs resetCond resetCount [] []

end Sys2Proof.Machine
end

