-- ==== Sys2Proof/Machine/Ops.lean ====
section
/-! DEFINITION. The named operations over memory, registers and the console: every instruction's meaning is written
over them. -/

namespace Sys2Proof.Machine

/-! ### Memory (R60 to R68) -/

/-- The word of one cell; a cell that is not listed holds 0 (R42). -/
def Memory.read : Memory → Nat → Word
  | [], _ => 0#16
  | (k, v) :: rest, a => if a = k then v else Memory.read rest a

/-- The memory without any entry for the address. -/
def Memory.erase (m : Memory) (a : Nat) : Memory :=
  m.filter fun c => decide (c.1 ≠ a)

/-- The entry put before the first greater address. -/
def Memory.insert : Memory → Nat → Word → Memory
  | [], a, v => [(a, v)]
  | (k, w) :: rest, a, v => if a < k then (a, v) :: (k, w) :: rest else (k, w) :: Memory.insert rest a v

/-- One cell written. Zero is what an unlisted cell holds, so writing it removes the entry. -/
def Memory.write (m : Memory) (a : Nat) (v : Word) : Memory :=
  if v = 0#16 then m.erase a else (m.erase a).insert a v

/-- The canonical form: addresses strictly rising and below 65536, no entry holding 0. -/
def Memory.wf (m : Memory) : Bool :=
  decide (m.Pairwise fun c e => c.1 < e.1) && m.all fun c => decide (c.1 < 65536) && decide (c.2 ≠ 0#16)

/-- The word in the cell at `a`, with no side effect: the state of memory, not an access of the block. -/
def State.cell (s : State) (a : Word) : Word :=
  s.mem.read a.toNat

/-- A cell set directly, with no side effect: what MemWrite, the poll and the loader do to one cell (R65, R68). -/
def State.setCell (s : State) (a v : Word) : State :=
  { s with mem := s.mem.write a.toNat v }

/-! ### Registers, PC, COND, run state and trace -/

/-- `x[i]`: register Ri read (R22). -/
def State.reg (s : State) (i : RegIdx) : Word :=
  s.regs[i.toNat]'i.isLt

/-- `x[i] <- v`: register Ri written (R22). No register is hardwired (R21). -/
def State.setReg (s : State) (i : RegIdx) (v : Word) : State :=
  { s with regs := s.regs.set i.toNat v i.isLt }

/-- `pc <- target` (R11). -/
def State.setPc (s : State) (target : Word) : State :=
  { s with pc := target }

/-- `setcc(v)` (R28). -/
def State.setCc (s : State) (v : Word) : State :=
  { s with cond := flagsOf v }

/-- The run state changed (R31). -/
def State.setRun (s : State) (r : Run) : State :=
  { s with run := r }

/-- `Out(v)` (R283): the value appended to the output trace. -/
def State.emit (s : State) (v : Word) : State :=
  { s with trace := s.trace ++ [v] }

/-- The GETC in progress marked or cleared (R282). -/
def State.setWait (s : State) (w : Bool) : State :=
  { s with inputWait := w }

/-! ### The console's answers (R281, R282) -/

/-- The answer of the next poll (R281): the head of the poll answers, or, when none is left, a draw. -/
def State.pollAnswer (s : State) : Option Byte :=
  s.pollAnswers.headD (Config.pollDraw s.pollCount)

/-- The poll answer consumed (R281): the next poll takes the next answer or a draw of its own. -/
def State.dropPoll (s : State) : State :=
  { s with pollAnswers := s.pollAnswers.tail, pollCount := s.pollCount + 1 }

/-- The blocking read's answer consumed (R282). -/
def State.dropRead (s : State) : State :=
  { s with readAnswers := s.readAnswers.tail }

/-! ### The memory arbiter (R63, R65) -/

/-- `ConsolePoll()` and the keyboard cells' update (R63): on a byte KBSR becomes x8000 and KBDR the byte; on none
KBSR becomes x0000 and KBDR is unchanged. Both writes of KBSR are whole-cell writes (D11). -/
def State.pollKeyboard (s : State) : State :=
  match s.pollAnswer with
  | some b => (s.dropPoll.setCell s.params.kbsrAddr 0x8000#16).setCell s.params.kbdrAddr (zext8 b)
  | none => s.dropPoll.setCell s.params.kbsrAddr 0#16

/-- The state a read of the address leaves (R63): only KBDR_ADDR has a side effect. -/
def State.afterRead (s : State) (a : Word) : State :=
  if a = s.params.kbdrAddr then s.pollKeyboard else s

/-- `MemRead(addr, 1)` (R63): the possibly just-updated word, and the state the read leaves. Every read of the block
is this one (R67). -/
def memRead (a : Word) (s : State) : Word × State :=
  ((s.afterRead a).cell a, s.afterRead a)

/-- `MemWrite(addr, 1, v)` (R65): a plain store at every address. -/
def memWrite (a v : Word) (s : State) : State :=
  s.setCell a v

/-! ### The fetch (R120) -/

/-- The fetch: the word at PC through the arbiter, and PC incremented modulo 65536 before execution (R26, R120). -/
def fetch (s : State) : Word × State :=
  let r := memRead s.pc s
  (r.1, r.2.setPc (s.pc + 1#16))

/-! ### Model faults (R272) -/

/-- `raise Fault(reason)` (R272): the run state becomes Faulted and nothing else changes. The hardware has no
exception of its own, saves nothing and has no handler address (R270, R274), and nothing returns from a fault. -/
def raiseFault (reason : FaultReason) (s : State) : State :=
  s.setRun (.faulted reason)

/-- The address of the instruction that executes: the fetch has incremented PC, so it is `pc - 1` (R271). -/
def State.instrAddr (s : State) : Word :=
  s.pc - 1#16

/-! ### Results -/

/-- A result written to its destination register, and the flags set from it (R29). -/
def writeBack (d : RegIdx) (v : Word) (s : State) : State :=
  (s.setReg d v).setCc v

/-- A PC-relative address (R180, R200): PC already holds the address after the instruction. -/
def State.pcRel {n : Nat} (s : State) (off : BitVec n) : Word :=
  s.pc + sext off

/-- A base plus offset address (R200). -/
def State.baseRel {n : Nat} (s : State) (b : RegIdx) (off : BitVec n) : Word :=
  s.reg b + sext off

/-- A load (R201, R206): the word at `ea` read through the arbiter into the destination, with flags. -/
def loadWord (d : RegIdx) (ea : Word) (s : State) : State :=
  let r := memRead ea s
  writeBack d r.1 r.2

end Sys2Proof.Machine
end

