-- ==== Sys2Proof/Machine/Control.lean ====
section
/-! DEFINITION. Control transfer (R180 to R186) and the two reserved opcodes (R260, R261). PC already holds the
address after the instruction (R26). None of them writes COND (R29). -/

namespace Sys2Proof.Machine

/-- R7, the link register (R23). -/
def linkReg : RegIdx := 7#3

/-- BR (R181): taken if the mask and COND have a bit in common. -/
def execBr (nzp : Cond) (off : BitVec 9) (s : State) : Host.Outcome State Fault Refusal :=
  if nzp &&& s.cond ≠ 0#3 then .next (s.setPc (s.pcRel off)) else .next s

/-- JMP (R182). -/
def execJmp (b : RegIdx) (s : State) : Host.Outcome State Fault Refusal :=
  .next (s.setPc (s.reg b))

/-- RET (R183). -/
def execRet (s : State) : Host.Outcome State Fault Refusal :=
  .next (s.setPc (s.reg linkReg))

/-- JSR (R184): the link is the incremented PC, and so is the base of the target. -/
def execJsr (off : BitVec 11) (s : State) : Host.Outcome State Fault Refusal :=
  .next ((s.setReg linkReg s.pc).setPc (s.pcRel off))

/-- JSRR (R185): with JSRR_LINK_FIRST the base is read after the link is written, so `JSRR R7` goes to the link;
without it the base is read first. -/
def execJsrr (b : RegIdx) (s : State) : Host.Outcome State Fault Refusal :=
  let linked := s.setReg linkReg s.pc
  .next (linked.setPc (if s.params.jsrrLinkFirst then linked.reg b else s.reg b))

/-- Opcode 8 (R260): a no-op. -/
def execRti (s : State) : Host.Outcome State Fault Refusal :=
  .next s

/-- Opcode 13 (R261): a no-op. -/
def execReserved (s : State) : Host.Outcome State Fault Refusal :=
  .next s

end Sys2Proof.Machine
end

