-- ==== Sys2Proof/Machine/LoadStore.lean ====
section
/-! DEFINITION. Loads and stores (R200 to R207). Every read goes through the arbiter (R67); no store writes COND. -/

namespace Sys2Proof.Machine

/-- LD (R201). -/
def execLd (d : RegIdx) (off : BitVec 9) (s : State) : Host.Outcome State Fault Refusal :=
  .next (loadWord d (s.pcRel off) s)

/-- LDI (R202): two reads in this order, each through the arbiter. -/
def execLdi (d : RegIdx) (off : BitVec 9) (s : State) : Host.Outcome State Fault Refusal :=
  let r := memRead (s.pcRel off) s
  .next (loadWord d r.1 r.2)

/-- LEA (R203): the address itself, with flags and without a memory access. -/
def execLea (d : RegIdx) (off : BitVec 9) (s : State) : Host.Outcome State Fault Refusal :=
  .next (writeBack d (s.pcRel off) s)

/-- ST (R204). -/
def execSt (r : RegIdx) (off : BitVec 9) (s : State) : Host.Outcome State Fault Refusal :=
  .next (memWrite (s.pcRel off) (s.reg r) s)

/-- STI (R205): the pointer is read through the arbiter, then the word is stored. -/
def execSti (r : RegIdx) (off : BitVec 9) (s : State) : Host.Outcome State Fault Refusal :=
  let p := memRead (s.pcRel off) s
  .next (memWrite p.1 (p.2.reg r) p.2)

/-- LDR (R206): the base is read before the destination is written. -/
def execLdr (d b : RegIdx) (off : BitVec 6) (s : State) : Host.Outcome State Fault Refusal :=
  .next (loadWord d (s.baseRel b off) s)

/-- STR (R207). -/
def execStr (r b : RegIdx) (off : BitVec 6) (s : State) : Host.Outcome State Fault Refusal :=
  .next (memWrite (s.baseRel b off) (s.reg r) s)

end Sys2Proof.Machine
end

