-- ==== Sys2Proof/Machine/Operate.lean ====
section
/-! DEFINITION. The operate instructions (R160 to R166). Both sources are read before the destination is written. -/

namespace Sys2Proof.Machine

/-- ADD, register mode (R162). -/
def execAddReg (d s1 s2 : RegIdx) (s : State) : Host.Outcome State Fault Refusal :=
  .next (writeBack d (alu .add (s.reg s1) (s.reg s2)) s)

/-- ADD, immediate mode (R163). -/
def execAddImm (d s1 : RegIdx) (imm : BitVec 5) (s : State) : Host.Outcome State Fault Refusal :=
  .next (writeBack d (alu .add (s.reg s1) (sext imm)) s)

/-- AND, register mode (R164). -/
def execAndReg (d s1 s2 : RegIdx) (s : State) : Host.Outcome State Fault Refusal :=
  .next (writeBack d (alu .and (s.reg s1) (s.reg s2)) s)

/-- AND, immediate mode (R165). -/
def execAndImm (d s1 : RegIdx) (imm : BitVec 5) (s : State) : Host.Outcome State Fault Refusal :=
  .next (writeBack d (alu .and (s.reg s1) (sext imm)) s)

/-- NOT (R166); the ALU's second input is unused. -/
def execNot (d s1 : RegIdx) (s : State) : Host.Outcome State Fault Refusal :=
  .next (writeBack d (alu .not (s.reg s1) 0#16) s)

end Sys2Proof.Machine
end

