-- ==== Sys2Proof/Machine/Trap.lean ====
section
/-! DEFINITION. TRAP, the trap dispatch multiplexer and its five built-in handlers (R230 to R240). No handler writes
COND or R7, saves PC or reads a vector table (R238, R274). -/

namespace Sys2Proof.Machine

/-- R0, the trap argument and result register (R23). -/
def argReg : RegIdx := 0#3

/-- GETC (R232, R282, R284): the blocking read. A byte goes to R0, zero-extended; an abort ends the run with R0 not
written; with neither the GETC waits, and the next step takes it up again without a fetch. -/
def execGetc (s : State) : Host.Outcome State Fault Refusal :=
  match s.readAnswers with
  | .byte b :: _ => .next ((s.dropRead.setWait false).setReg argReg (zext8 b))
  | .abort :: _ => .next ((s.dropRead.setWait false).setRun .aborted)
  | [] => .next (s.setWait true)

/-- OUT (R233): the whole 16-bit value of R0 goes to the trace. -/
def execOut (s : State) : Host.Outcome State Fault Refusal :=
  .next (s.emit (s.reg argReg))

/-- How many words a string walk may read before it is unterminated (R235). -/
def walkLimit : Nat := 65536

/-- The walk of PUTS (R234) from `a`, with `n` reads left: a zero word ends it and is not output. No state when the
reads run out (R235). -/
def walkWords : Nat → Word → State → Option State
  | 0, _, _ => none
  | n + 1, a, s =>
    let r := memRead a s
    if r.1 = 0#16 then some r.2 else walkWords n (a + 1#16) (r.2.emit r.1)

/-- The walk of PUTSP (R236) from `a`, with `n` reads left: low byte first, then high byte; the first zero byte ends
it. No state when the reads run out (R235). -/
def walkBytes : Nat → Word → State → Option State
  | 0, _, _ => none
  | n + 1, a, s =>
    let r := memRead a s
    let lo := lowByte r.1
    let hi := highByte r.1
    if lo = 0#8 then some r.2
    else if hi = 0#8 then some (r.2.emit (zext8 lo))
    else walkBytes n (a + 1#16) ((r.2.emit (zext8 lo)).emit (zext8 hi))

/-- What a string trap answers (R235, R288): the state its walk leaves, or Hang. -/
def walkOutcome (r : Option State) : Host.Outcome State Fault Refusal :=
  match r with
  | some s => .next s
  | none => .fault .hang

/-- PUTS (R234): the words from the address in R0 up to a zero word. -/
def execPuts (s : State) : Host.Outcome State Fault Refusal :=
  walkOutcome (walkWords walkLimit (s.reg argReg) s)

/-- PUTSP (R236): the bytes, two a word, from the address in R0 up to a zero byte. -/
def execPutsp (s : State) : Host.Outcome State Fault Refusal :=
  walkOutcome (walkBytes walkLimit (s.reg argReg) s)

/-- HALT (R240): the run state becomes Halted. -/
def execHalt (s : State) : Host.Outcome State Fault Refusal :=
  .next (s.setRun .halted)

/-- TRAP (R231): the multiplexer selects a handler by the vector; an unhandled vector faults (R237). -/
def execTrap (v : Byte) (s : State) : Host.Outcome State Fault Refusal :=
  if v = s.params.tvGetc then execGetc s
  else if v = s.params.tvOut then execOut s
  else if v = s.params.tvPuts then execPuts s
  else if v = s.params.tvPutsp then execPutsp s
  else if v = s.params.tvHalt then execHalt s
  else .next (raiseFault (.unknownTrapVector v s.instrAddr) s)

end Sys2Proof.Machine
end

