-- ==== Sys2Proof/Machine/Dispatch.lean ====
section
/-! DEFINITION. The meaning of each instruction, one arm per constructor (R107). -/

namespace Sys2Proof.Machine

/-- The handler an instruction selects, on the state after its fetch (R120). -/
def exec (i : Instr) (s : State) : Host.Outcome State Fault Refusal :=
  match i with
  | .br nzp off => Sys2Proof.Machine.execBr nzp off s
  | .addReg d a b => Sys2Proof.Machine.execAddReg d a b s
  | .addImm d a imm => Sys2Proof.Machine.execAddImm d a imm s
  | .ld d off => Sys2Proof.Machine.execLd d off s
  | .st r off => Sys2Proof.Machine.execSt r off s
  | .jsr off => Sys2Proof.Machine.execJsr off s
  | .jsrr b => Sys2Proof.Machine.execJsrr b s
  | .andReg d a b => Sys2Proof.Machine.execAndReg d a b s
  | .andImm d a imm => Sys2Proof.Machine.execAndImm d a imm s
  | .ldr d b off => Sys2Proof.Machine.execLdr d b off s
  | .str r b off => Sys2Proof.Machine.execStr r b off s
  | .rti => Sys2Proof.Machine.execRti s
  | .not d a => Sys2Proof.Machine.execNot d a s
  | .ldi d off => Sys2Proof.Machine.execLdi d off s
  | .sti r off => Sys2Proof.Machine.execSti r off s
  | .jmp b => Sys2Proof.Machine.execJmp b s
  | .ret => Sys2Proof.Machine.execRet s
  | .reserved => Sys2Proof.Machine.execReserved s
  | .lea d off => Sys2Proof.Machine.execLea d off s
  | .trap v => Sys2Proof.Machine.execTrap v s
  | .getc => Sys2Proof.Machine.execGetc s
  | .out => Sys2Proof.Machine.execOut s
  | .puts => Sys2Proof.Machine.execPuts s
  | .putsp => Sys2Proof.Machine.execPutsp s
  | .halt => Sys2Proof.Machine.execHalt s

end Sys2Proof.Machine
end

