-- ==== Sys2Proof/Machine/Cycle.lean ====
section
/-! DEFINITION. The instruction cycle of a Running block: fetch, decode and dispatch (R120), or the GETC that waits
(R282). -/

namespace Sys2Proof.Machine

/-- Fetch, increment, decode and dispatch (R120); a word the decoder rejects raises its fault on the state after the
fetch (R108, R272). -/
def runInstr (s : State) : Host.Outcome State Fault Refusal :=
  let f := fetch s
  match decode s.params f.1 with
  | .ok i => exec i f.2
  | .error .nonCanonicalEncoding => .next (raiseFault (.nonCanonicalEncoding f.1 f.2.instrAddr) f.2)

/-- What a Running block does next: a GETC that waits is taken up again where it stands, without a fetch (R282);
otherwise the next instruction runs. -/
def cycle (s : State) : Host.Outcome State Fault Refusal :=
  if s.inputWait then execGetc s else runInstr s

/-- The word of spec/opcode_table.json's numbering that `nbits` and `w` give (R100): bits above `nbits` are zero. -/
def tableWord (nbits w : Nat) : Word :=
  BitVec.ofNat 16 (w % 2 ^ nbits)

end Sys2Proof.Machine
end

