-- ==== Sys2Proof/Machine/Step.lean ====
section
/-! DEFINITION. One step of the block (R120), and where a step fetches from. -/

namespace Sys2Proof.Machine

/-- One step (R120). It needs the run state Running; from Halted, Faulted and Aborted no step is taken (R31). -/
def step (s : State) : Host.Outcome State Fault Refusal :=
  match s.run with
  | .running => cycle s
  | .halted => .fault (.stopped .halted)
  | .faulted r => .fault (.stopped (.faulted r))
  | .aborted => .fault (.stopped .aborted)

/-- The state with a word stored where the next step fetches. The fetch needs a Running block with no GETC waiting,
and, at the keyboard-data cell, a poll that leaves the cell alone (R63); nothing else is changed (log 16). -/
def State.withFetchWord (s : State) (nbits w : Nat) : State :=
  { s with
    mem := s.mem.write s.pc.toNat (tableWord nbits w)
    run := .running
    inputWait := false
    pollAnswers := if s.pc = s.params.kbdrAddr then none :: s.pollAnswers else s.pollAnswers }

end Sys2Proof.Machine
end

