-- ==== Sys2Proof/Machine/Assembler.lean ====
section
/-! DEFINITION. The assembler's forms (R130 to R142): software, not part of the block, in scope as the source of the
mnemonic syntax and the pseudo-instructions (R4). A line stands here already cut into its tokens; Lexer.lean cuts the
text. The forms the spec leaves open are log 14. -/

namespace Sys2Proof.Machine

/-- An operand as written: a name (a register or a label) or a numeric literal. -/
inductive Token where
  | name (n : String)
  | lit (v : Int)
  deriving DecidableEq, Repr

/-- A source line (R130). -/
inductive Line where
  /-- A blank or comment-only line (R131). -/
  | blank
  /-- `.ORIG x<hex>` (R131). -/
  | orig (a : Word)
  /-- `.END` (R132). -/
  | stop
  /-- `.FILL <value>` (R132, R139). -/
  | fill (v : Int)
  /-- `.STRINGZ "<text>"` (R132), with its escapes replaced. -/
  | stringz (text : List Char)
  /-- A name alone or with operands: a label declaration or an instruction (R132). -/
  | named (n : String) (args : List Token)
  deriving DecidableEq, Repr

/-- The mnemonics (R138 to R140); the branch variants differ by their mask. -/
inductive Mnemonic where
  | add | and | not | br (nzp : Cond) | jmp | ret | jsr | jsrr | ld | ldi | lea | st | sti | ldr | str
  | getc | out | puts | putsp | halt
  deriving DecidableEq, Repr

/-- The spellings, case-sensitive (R130, R138, R139, R140); `BR` is `BRnzp`. -/
def mnemonicTable : List (String × Mnemonic) :=
  [("ADD", .add), ("AND", .and), ("NOT", .not), ("BR", .br 0b111), ("BRn", .br 0b100), ("BRz", .br 0b010),
    ("BRp", .br 0b001), ("BRnz", .br 0b110), ("BRnp", .br 0b101), ("BRzp", .br 0b011), ("BRnzp", .br 0b111),
    ("JMP", .jmp), ("RET", .ret), ("JSR", .jsr), ("JSRR", .jsrr), ("LD", .ld), ("LDI", .ldi), ("LEA", .lea),
    ("ST", .st), ("STI", .sti), ("LDR", .ldr), ("STR", .str), ("GETC", .getc), ("OUT", .out), ("PUTS", .puts),
    ("PUTSP", .putsp), ("HALT", .halt)]

/-- What a symbol stands for: a register index or an address (R21, R132). -/
inductive Sym where
  | register (r : RegIdx)
  | address (a : Word)
  deriving DecidableEq, Repr

/-- The symbol table. -/
abbrev Symbols := List (String × Sym)

/-- The pre-populated register names (R21, R133). -/
def registerNames : Symbols :=
  [("R0", .register 0), ("R1", .register 1), ("R2", .register 2), ("R3", .register 3), ("R4", .register 4),
    ("R5", .register 5), ("R6", .register 6), ("R7", .register 7)]

/-- The assembler's errors (R142). -/
inductive AsmErrorKind where
  /-- An operand names no symbol. -/
  | undefinedLabel
  /-- The first effective line is no origin directive, or there is none (R131). -/
  | missingOrigin
  /-- An origin directive after the first effective line. -/
  | misplacedOrigin
  /-- A name with operands that is no mnemonic. -/
  | unknownMnemonic
  /-- Operands that are no form of R140. -/
  | badOperands
  /-- A label bound twice (R132). -/
  | labelRedefined
  /-- A directive that is none of R130's. -/
  | unknownDirective
  /-- A literal whose digits are no number of its prefix (R133). -/
  | malformedLiteral
  /-- The operand of `.STRINGZ` is no text in quotes (R130). -/
  | malformedText
  deriving DecidableEq, Repr

/-- An error and the number of the offending line, from 0 (R142). -/
structure AsmError where
  kind : AsmErrorKind
  line : Nat
  deriving DecidableEq, Repr

/-- A statement that emits words (R132), with its line number. -/
inductive Stmt where
  | instr (line : Nat) (m : Mnemonic) (args : List Token)
  | fill (v : Int)
  | stringz (text : List Char)
  deriving DecidableEq, Repr

/-- How many words a statement takes (R132). -/
def Stmt.size : Stmt → Nat
  | .instr _ _ _ => 1
  | .fill _ => 1
  | .stringz text => text.length + 1

/-- What pass 1 gives: the symbol table and the statements with their addresses, in order. -/
structure Layout where
  symbols : Symbols
  stmts : List (Word × Stmt)
  deriving DecidableEq, Repr

/-- The layout with a statement at the running address. -/
def Layout.addStmt (l : Layout) (a : Word) (s : Stmt) : Layout :=
  { l with stmts := l.stmts ++ [(a, s)] }

/-- Pass 1 (R132) from a line number and a running address on: labels are bound to the address of the next
statement, statements advance it, `.END` ends the pass. DESIGN CHOICE (log 14; unsafe for such source texts): the
spec does not say what a text without `.END` is, and the end of the lines ends the pass as well; nor what a label with
no statement after it is bound to, and it is bound to the running address. -/
def layoutFrom : Nat → Word → List Line → Layout → Except AsmError Layout
  | _, _, [], l => .ok l
  | n, a, line :: rest, l =>
    match line with
    | .blank => layoutFrom (n + 1) a rest l
    | .orig _ => .error { kind := .misplacedOrigin, line := n }
    | .stop => .ok l
    | .fill v => layoutFrom (n + 1) (a + 1) rest (l.addStmt a (.fill v))
    | .stringz text =>
      layoutFrom (n + 1) (a + BitVec.ofNat 16 (text.length + 1)) rest (l.addStmt a (.stringz text))
    | .named name args =>
      match mnemonicTable.lookup name, args with
      | some m, _ => layoutFrom (n + 1) (a + 1) rest (l.addStmt a (.instr n m args))
      | none, [] =>
        if (l.symbols.lookup name).isSome then .error { kind := .labelRedefined, line := n }
        else layoutFrom (n + 1) a rest { l with symbols := l.symbols ++ [(name, .address a)] }
      | none, _ :: _ => .error { kind := .unknownMnemonic, line := n }

/-- The origin (R131): leading blank lines are skipped; the first effective line must be the origin directive. The
answer is the origin, and pass 1 over the lines after it. -/
def layoutSource : Nat → List Line → Except AsmError (Word × Layout)
  | n, [] => .error { kind := .missingOrigin, line := n }
  | n, .blank :: rest => layoutSource (n + 1) rest
  | n, .orig a :: rest => do
    let l ← layoutFrom (n + 1) a rest { symbols := registerNames, stmts := [] }
    .ok (a, l)
  | n, _ :: _ => .error { kind := .missingOrigin, line := n }

/-- A register operand (R133). -/
def asReg (syms : Symbols) (line : Nat) : Token → Except AsmError RegIdx
  | .lit _ => .error { kind := .badOperands, line := line }
  | .name n =>
    match syms.lookup n with
    | some (.register r) => .ok r
    | some (.address _) => .error { kind := .badOperands, line := line }
    | none => .error { kind := .undefinedLabel, line := line }

/-- A label operand (R133), as the distance from the address after the instruction (R134). The caller truncates it
to its field. -/
def asDistance (syms : Symbols) (line : Nat) (a : Word) : Token → Except AsmError Word
  | .lit _ => .error { kind := .badOperands, line := line }
  | .name n =>
    match syms.lookup n with
    | some (.address target) => .ok (target - (a + 1))
    | some (.register _) => .error { kind := .badOperands, line := line }
    | none => .error { kind := .undefinedLabel, line := line }

/-- A numeric operand. -/
def asNumber (line : Nat) : Token → Except AsmError Int
  | .lit v => .ok v
  | .name _ => .error { kind := .badOperands, line := line }

/-- ADD and AND (R135): the register mode if the third operand names a register, else the immediate mode, its
literal masked to 5 bits. DESIGN CHOICE: R135 gives a third operand that is a declared label no value; it is refused
with `badOperands` (log 14; unsafe for such source texts). -/
def aluInstr (regForm : RegIdx → RegIdx → RegIdx → Instr) (immForm : RegIdx → RegIdx → BitVec 5 → Instr)
    (syms : Symbols) (line : Nat) (d s third : Token) : Except AsmError Instr := do
  let rd ← asReg syms line d
  let rs ← asReg syms line s
  match third with
  | .name _ => do
    let rt ← asReg syms line third
    .ok (regForm rd rs rt)
  | .lit v => .ok (immForm rd rs (BitVec.ofInt 5 v))

/-- An instruction of a register and a label (R134, R140). -/
def pcRelInstr (form : RegIdx → BitVec 9 → Instr) (syms : Symbols) (line : Nat) (a : Word) (r target : Token) :
    Except AsmError Instr := do
  let reg ← asReg syms line r
  let dist ← asDistance syms line a target
  .ok (form reg (dist.truncate 9))

/-- An instruction of a register, a base and an offset (R140). -/
def baseInstr (form : RegIdx → RegIdx → BitVec 6 → Instr) (syms : Symbols) (line : Nat) (r b off : Token) :
    Except AsmError Instr := do
  let reg ← asReg syms line r
  let base ← asReg syms line b
  let v ← asNumber line off
  .ok (form reg base (BitVec.ofInt 6 v))

/-- Pass 2 for one instruction at its address (R133 to R140). -/
def asmInstr (syms : Symbols) (line : Nat) (a : Word) (m : Mnemonic) (args : List Token) : Except AsmError Instr :=
  match m, args with
  | .add, [d, s, t] => aluInstr .addReg .addImm syms line d s t
  | .and, [d, s, t] => aluInstr .andReg .andImm syms line d s t
  | .not, [d, s] => do .ok (.not (← asReg syms line d) (← asReg syms line s))
  | .br nzp, [target] => do .ok (.br nzp ((← asDistance syms line a target).truncate 9))
  | .jmp, [b] => do .ok (.jmp (← asReg syms line b))
  | .ret, [] => .ok .ret
  | .jsr, [target] => do .ok (.jsr ((← asDistance syms line a target).truncate 11))
  | .jsrr, [b] => do .ok (.jsrr (← asReg syms line b))
  | .ld, [r, t] => pcRelInstr .ld syms line a r t
  | .ldi, [r, t] => pcRelInstr .ldi syms line a r t
  | .lea, [r, t] => pcRelInstr .lea syms line a r t
  | .st, [r, t] => pcRelInstr .st syms line a r t
  | .sti, [r, t] => pcRelInstr .sti syms line a r t
  | .ldr, [r, b, o] => baseInstr .ldr syms line r b o
  | .str, [r, b, o] => baseInstr .str syms line r b o
  | .getc, [] => .ok .getc
  | .out, [] => .ok .out
  | .puts, [] => .ok .puts
  | .putsp, [] => .ok .putsp
  | .halt, [] => .ok .halt
  | _, _ => .error { kind := .badOperands, line := line }

/-- The words a statement emits (R132, R139). -/
def emitStmt (p : Params) (syms : Symbols) (a : Word) : Stmt → Except AsmError (List Word)
  | .instr line m args => do .ok [encode p (← asmInstr syms line a m args)]
  | .fill v => .ok [BitVec.ofInt 16 v]
  | .stringz text => .ok (text.map (fun c => BitVec.ofNat 16 c.toNat) ++ [0])

/-- Pass 2 over the statements in order; the first error ends it, with no partial output (R142). -/
def emitAll (p : Params) (syms : Symbols) : List (Word × Stmt) → Except AsmError (List Word)
  | [] => .ok []
  | (a, s) :: rest => do
    let ws ← emitStmt p syms a s
    let more ← emitAll p syms rest
    .ok (ws ++ more)

/-- The assembler (R141): the origin, then every statement's words in order. -/
def assemble (p : Params) (src : List Line) : Except AsmError (List Word) := do
  let (origin, l) ← layoutSource 0 src
  let ws ← emitAll p l.symbols l.stmts
  .ok (origin :: ws)

/-- The output image (R141): each word as its high byte and then its low byte. -/
def imageBytes (ws : List Word) : List Byte :=
  ws.flatMap fun w => [w.extractLsb' 8 8, w.extractLsb' 0 8]

/-- The value of a digit in a base, or none. -/
def digitValue (base : Nat) (c : Char) : Option Nat :=
  let v :=
    if '0' ≤ c ∧ c ≤ '9' then some (c.toNat - '0'.toNat)
    else if 'a' ≤ c ∧ c ≤ 'f' then some (c.toNat - 'a'.toNat + 10)
    else if 'A' ≤ c ∧ c ≤ 'F' then some (c.toNat - 'A'.toNat + 10)
    else none
  v.filter fun d => decide (d < base)

/-- Digits in a base, most significant first, after the digits read so far. -/
def digitsValue (base : Nat) : Nat → List Char → Option Nat
  | acc, [] => some acc
  | acc, c :: rest =>
    match digitValue base c with
    | some d => digitsValue base (acc * base + d) rest
    | none => none

/-- A number of at least one digit. -/
def numberValue (base : Nat) : List Char → Option Nat
  | [] => none
  | c :: rest => digitsValue base 0 (c :: rest)

/-- A numeric literal (R133): `#` decimal, `x` or `X` hexadecimal, `b` or `B` binary; a decimal may carry a minus
sign (R140, `#-1`). Any other text is malformed (R142) or a form the spec leaves open (log 14). -/
def literalValue : List Char → Option Int
  | '#' :: '-' :: ds => (numberValue 10 ds).map fun n => -(n : Int)
  | '#' :: ds => (numberValue 10 ds).map Int.ofNat
  | 'x' :: ds => (numberValue 16 ds).map Int.ofNat
  | 'X' :: ds => (numberValue 16 ds).map Int.ofNat
  | 'b' :: ds => (numberValue 2 ds).map Int.ofNat
  | 'B' :: ds => (numberValue 2 ds).map Int.ofNat
  | _ => none

end Sys2Proof.Machine
end

