-- ==== Sys2Proof/Machine/Launch.lean ====
section
/-! DEFINITION. The host's interactions with the block (R286): the image load (R301), the launch (R300), the answer to
a waiting GETC (R282, R284), and the exit status (R284). -/

namespace Sys2Proof.Machine

/-- Why a launch is refused (R301). -/
inductive LaunchRefusal where
  /-- Raised by `load`: the image has fewer than two bytes, so no origin. Safe: such a launch has no run. -/
  | shortImage
  /-- Raised by `load`: the image ends in half a word. Safe: such a launch has no run. -/
  | oddImage
  deriving DecidableEq, Repr

/-- The words of a byte string, each a high byte and then a low byte (R69). -/
def imageWords : List Byte → List Word
  | hi :: lo :: rest => (hi ++ lo) :: imageWords rest
  | _ => []

/-- The words written one a cell from an address on, wrapping modulo 65536; a later word wins (R301). -/
def loadWords : Word → List Word → State → State
  | _, [], s => s
  | a, w :: ws, s => loadWords (a + 1#16) ws (s.setCell a w)

/-- `load(image)` (R301): the first word is the origin, the rest are the program. Cells are set directly, without
the arbiter's side effects (R68). -/
def load (image : List Byte) (s : State) : Except LaunchRefusal State :=
  if image.length < 2 then .error .shortImage
  else if image.length % 2 = 1 then .error .oddImage
  else .ok (loadWords ((imageWords image).headD 0) (imageWords image).tail s)

/-- A launch (R300): the reset state for every value the spec leaves open, then the image. Execution starts at
BOOT_PC whatever the origin (R302). -/
def launch (p : Params) (regInit : Vector Word 8) (condInit : Cond) (countInit : Word)
    (polls : List (Option Byte)) (reads : List ReadAnswer) (image : List Byte) : Except LaunchRefusal State :=
  load image (.powerOn p regInit condInit countInit polls reads)

/-- A GETC waits, and nothing has answered it yet: the only moment the host may supply a byte or assert abort
(R284, R286). -/
def State.waiting (s : State) : Bool :=
  decide (s.run = .running) && s.inputWait && s.readAnswers.isEmpty

/-- The host answers a waiting GETC with a byte or an abort (R282, R284); at any other time it has no such move. -/
def hostAnswer (a : ReadAnswer) (s : State) : Option State :=
  if s.waiting then some { s with readAnswers := [a] } else none

/-- The exit status the host gets (R284, R286): ABORT_STATUS for an aborted run. The spec states none for any other
end (R287). -/
def State.exitStatus (s : State) : Option Nat :=
  if s.run = .aborted then some Config.abortStatus else none

end Sys2Proof.Machine
end

