-- ==== Sys2Proof/Safety.lean ====
section
/-! DEFINITION. What a run of the block is, how it ends, and which ends are successful (R122, R287, R288). -/

namespace Sys2Proof

open Machine

/-- How a run ends (R287), with the final state where there is one. -/
inductive RunEnd where
  /-- The HALT trap was executed: the only successful end. -/
  | halted (s : State)
  /-- A model fault stopped the run. -/
  | faulted (reason : FaultReason) (s : State)
  /-- The host aborted a waiting GETC. -/
  | aborted (s : State)
  /-- A step did not end (R288). -/
  | hang
  deriving DecidableEq, Repr

/-- The end that a state is, if its run state has left Running (R122, R287). -/
def endOf (s : State) : Option RunEnd :=
  match s.run with
  | .running => none
  | .halted => some (.halted s)
  | .faulted r => some (.faulted r s)
  | .aborted => some (.aborted s)

/-- Only Halted is a successful end (R287). -/
def RunEnd.successful : RunEnd → Bool
  | .halted _ => true
  | .faulted _ _ | .aborted _ | .hang => false

/-- `t` is reached from `s` by steps of the block and, while a GETC waits, answers of the host (R284, R286). -/
inductive Reaches : State → State → Prop where
  | refl (s : State) : Reaches s s
  | tail {s t u : State} : Reaches s t → step t = .next u → Reaches s u
  | answer {s t u : State} (a : ReadAnswer) : Reaches s t → hostAnswer a t = some u → Reaches s u

/-- The run from `s` ends with `e`: it reaches a state that is this end, or a state whose step hangs. -/
def EndsWith (s : State) (e : RunEnd) : Prop :=
  ∃ t, Reaches s t ∧ (endOf t = some e ∨ (e = .hang ∧ step t = .fault .hang))

/-- The block takes a step from the state, and the step raises no model fault. -/
def StepsSafely (s : State) : Prop :=
  ∃ t, step s = .next t ∧ ∀ r, t.run ≠ .faulted r

end Sys2Proof
end

