-- ==== Sys2Proof/Certificates/Slice0/Obligations.lean ====
section
/-! DEFINITION. The statements for the provers, each a rule of the spec or a consequence of its rules. First the
vocabulary they share: what an instruction leaves alone, the flags of a value, the reads of a string walk, the fixed
bits of a word, and the invariant. -/

namespace Sys2Proof.Claims

open Machine

/-! ### What is left alone -/

/-- Every general register reads as before. -/
def RegsKept (s t : State) : Prop :=
  ∀ r, t.reg r = s.reg r

/-- Every general register but one reads as before. -/
def RegsKeptBut (d : RegIdx) (s t : State) : Prop :=
  ∀ r, r ≠ d → t.reg r = s.reg r

/-- Every cell of memory reads as before. -/
def CellsKept (s t : State) : Prop :=
  ∀ a, t.cell a = s.cell a

/-- Every cell of memory but one reads as before. -/
def CellsKeptBut (e : Word) (s t : State) : Prop :=
  ∀ a, a ≠ e → t.cell a = s.cell a

/-- Everything but the registers, PC, COND, memory and the answers to polls is as before: COUNT, the run state, the
output trace, the GETC in progress, the answers to blocking reads, and the parameters. -/
def RestKept (s t : State) : Prop :=
  t.count = s.count ∧ t.run = s.run ∧ t.trace = s.trace ∧ t.inputWait = s.inputWait ∧
    t.readAnswers = s.readAnswers ∧ t.params = s.params

/-- No poll between the two states: the answers to come and the number of polls are as before (the model's own
fields, log 6). -/
def PollsKept (s t : State) : Prop :=
  t.pollAnswers = s.pollAnswers ∧ t.pollCount = s.pollCount

/-- Memory, the answers to polls and the rest are as before: only registers, PC and COND may differ. -/
def Quiet (s t : State) : Prop :=
  CellsKept s t ∧ PollsKept s t ∧ RestKept s t

/-- Memory and the answers to polls are what a read of `ea` leaves (R63), and the rest is as before. -/
def QuietButRead (ea : Word) (s t : State) : Prop :=
  CellsKept (memRead ea s).2 t ∧ PollsKept (memRead ea s).2 t ∧ RestKept s t

/-! ### Flags, extension, answers -/

/-- `c` is the condition `setcc` gives for `v` (R28). -/
def FlagsShow (v : Word) (c : Cond) : Prop :=
  c = if v = 0#16 then 0b010#3 else if v.msb then 0b100#3 else 0b001#3

/-- Exactly one of N, Z and P is set (R28). -/
def OneHot (c : Cond) : Prop :=
  c = 0b001#3 ∨ c = 0b010#3 ∨ c = 0b100#3

/-- R10's formula of `sext_N`: the field with zeros above it, or with ones above it if its top bit is set. -/
def SextFormula {n : Nat} (v : BitVec n) (w : Word) : Prop :=
  w = if v.msb then v.zeroExtend 16 ||| (0xFFFF#16 <<< n) else v.zeroExtend 16

/-- The outcome with its next state changed by `f`; a fault or refusal stands. -/
def mapNext (f : State → State) : Host.Outcome State Fault Refusal → Host.Outcome State Fault Refusal
  | .next s => .next (f s)
  | .fault r => .fault r
  | .refused r => .refused r

/-- The next poll finds `p`: the first of the answers to come is `p`, or none is left and the draw is `p` (log 6). -/
def PollFinds (s : State) (p : Option Byte) : Prop :=
  s.pollAnswers.head? = some p ∨ s.pollAnswers = [] ∧ Config.pollDraw s.pollCount = p

/-! ### The reads of a string walk -/

/-- The state after `n` reads from `a` on, one address after the other. -/
def afterReads : Nat → Word → State → State
  | 0, _, s => s
  | n + 1, a, s => afterReads n (a + 1#16) (s.afterRead a)

/-- The word the read number `n` (from 0) gives in the reads from `a` on. -/
def nthRead (n : Nat) (a : Word) (s : State) : Word :=
  (memRead (a + BitVec.ofNat 16 n) (afterReads n a s)).1

/-- The two characters of a packed word, low byte first (R236). -/
def packed (w : Word) : List Word :=
  [zext8 (lowByte w), zext8 (highByte w)]

/-! ### Fixed bits (R104, R108) -/

/-- The bits of a word that no rule reads (R108), by its opcode and selector. -/
def ignoredBits (w : Word) : Word :=
  match (fieldsOf w).opcode with
  | 1#4 | 5#4 => if w.getLsbD 5 then 0#16 else 0x0018#16
  | 4#4 => if w.getLsbD 11 then 0#16 else 0x063F#16
  | 8#4 | 13#4 => 0x0FFF#16
  | 9#4 => 0x003F#16
  | 12#4 => 0x0E3F#16
  | 15#4 => 0x0F00#16
  | _ => 0#16

/-- The values of those bits in the words an assembler writes: the ones of NOT, zeros elsewhere (R104). -/
def fixedValues (w : Word) : Word :=
  if (fieldsOf w).opcode = 9#4 then 0x003F#16 else 0#16

/-- Opcodes 8 and 13 are outside the strict check (R108, R260, R261). -/
def reservedOpcode (w : Word) : Prop :=
  (fieldsOf w).opcode = 8#4 ∨ (fieldsOf w).opcode = 13#4

/-! ### Which instructions -/

/-- The instructions that call setcc (R29). -/
def writesFlags : Instr → Bool
  | .addReg _ _ _ | .addImm _ _ _ | .andReg _ _ _ | .andImm _ _ _ | .not _ _ | .ld _ _ | .ldi _ _ | .ldr _ _ _
  | .lea _ _ => true
  | .br _ _ | .st _ _ | .jsr _ | .jsrr _ | .str _ _ _ | .rti | .sti _ _ | .jmp _ | .ret | .reserved | .trap _
  | .getc | .out | .puts | .putsp | .halt => false

/-- The instructions that transfer control (R23: those that write PC themselves). -/
def transfers : Instr → Bool
  | .br _ _ | .jsr _ | .jsrr _ | .jmp _ | .ret => true
  | .addReg _ _ _ | .addImm _ _ _ | .andReg _ _ _ | .andImm _ _ _ | .not _ _ | .ld _ _ | .ldi _ _ | .ldr _ _ _
  | .lea _ _ | .st _ _ | .str _ _ _ | .rti | .sti _ _ | .reserved | .trap _ | .getc | .out | .puts | .putsp
  | .halt => false

/-- The stores (R67: "Every memory write goes through MemWrite: ST, STI, STR"). -/
def stores : Instr → Bool
  | .st _ _ | .sti _ _ | .str _ _ _ => true
  | .br _ _ | .addReg _ _ _ | .addImm _ _ _ | .andReg _ _ _ | .andImm _ _ _ | .not _ _ | .ld _ _ | .ldi _ _
  | .ldr _ _ _ | .lea _ _ | .jsr _ | .jsrr _ | .rti | .jmp _ | .ret | .reserved | .trap _ | .getc | .out | .puts
  | .putsp | .halt => false

/-- TRAP and the names of its handlers (R231). -/
def isTrap : Instr → Bool
  | .trap _ | .getc | .out | .puts | .putsp | .halt => true
  | .br _ _ | .addReg _ _ _ | .addImm _ _ _ | .andReg _ _ _ | .andImm _ _ _ | .not _ _ | .ld _ _ | .ldi _ _
  | .ldr _ _ _ | .lea _ _ | .st _ _ | .sti _ _ | .str _ _ _ | .jsr _ | .jsrr _ | .rti | .jmp _ | .ret
  | .reserved => false

/-- The instruction the next step fetches, if the decoder gives one. -/
def Fetches (s : State) (i : Instr) : Prop :=
  decode s.params (fetch s).1 = .ok i

/-! ### The invariant -/

/-- Memory is in canonical form, the parameters meet their constraints, and a GETC waits only in a Running block. -/
def Inv (s : State) : Prop :=
  s.mem.wf = true ∧ s.params.wf = true ∧ (s.inputWait = true → s.run = .running)

end Sys2Proof.Claims

section

open Sys2Proof Sys2Proof.Machine Sys2Proof.Claims

/-! ### Encoding and decoding -/

/-- R111: decoding an encoded instruction gives it back, under either setting of STRICT_FIXED_BITS, and the word's
top four bits are the opcode. -/
def Obligations.DecodeOfEncodeIsIdentity : Prop :=
  ∀ (p : Params) (i : Instr), p.wf = true → i.wf p = true →
    decode p (encode p i) = .ok i ∧ (encode p i).extractLsb' 12 4 = opcodeOf i

/-- R104, R111: a word whose fixed bits are canonical, of any opcode but 8 and 13, is the encoding of the
instruction it decodes to, so no bit of an encoding is dropped. -/
def Obligations.EncodeOfDecodeIsIdentity : Prop :=
  ∀ (p : Params) (w : Word) (i : Instr), canonical w = true → ¬reservedOpcode w → decode p w = .ok i →
    encode p i = w

/-- R110, R105: the words of R104's formats are those that accumulating the fields in declared order gives; a value
for a field outside the opcode's layout changes nothing; and whatever the values, negative or too wide, the word's top
four bits are the opcode (R111). -/
def Obligations.EncodeAccumulatesTheFields : Prop :=
  (∀ (p : Params) (i : Instr), encode p i = encodeFields (opcodeOf i) (fieldValues p i)) ∧
  (∀ (op : BitVec 4) (vals : FieldValues) (n : FieldName) (v : Int), n ∉ layout op →
    encodeFields op ((n, v) :: vals) = encodeFields op vals) ∧
  ∀ (op : BitVec 4) (vals : FieldValues), (encodeFields op vals).extractLsb' 12 4 = op

/-- R101, R102: every field the decoder cuts, from every word, is the word shifted by the field's offset and masked
to its width. -/
def Obligations.FieldsAreShiftedAndMasked : Prop :=
  ∀ w : Word,
    (fieldsOf w).r0.zeroExtend 16 = fieldRaw FieldName.r0.desc w ∧
    (fieldsOf w).r1.zeroExtend 16 = fieldRaw FieldName.r1.desc w ∧
    (fieldsOf w).r2.zeroExtend 16 = fieldRaw FieldName.r2.desc w ∧
    (fieldsOf w).imm5.zeroExtend 16 = fieldRaw FieldName.imm5.desc w ∧
    (fieldsOf w).nzp.zeroExtend 16 = fieldRaw FieldName.nzp.desc w ∧
    (fieldsOf w).off9.zeroExtend 16 = fieldRaw FieldName.off9.desc w ∧
    (fieldsOf w).off11.zeroExtend 16 = fieldRaw FieldName.off11.desc w ∧
    (fieldsOf w).off6.zeroExtend 16 = fieldRaw FieldName.off6.desc w ∧
    (fieldsOf w).ones6.zeroExtend 16 = fieldRaw FieldName.ones6.desc w ∧
    (fieldsOf w).trapvect8.zeroExtend 16 = fieldRaw FieldName.trapvect8.desc w ∧
    ((fieldsOf w).immSel = true ↔ fieldRaw FieldName.immSel.desc w = 1#16) ∧
    ((fieldsOf w).longSel = true ↔ fieldRaw FieldName.longSel.desc w = 1#16)

/-- R106: the dispatch vector is one-hot, `sel[k] = (w[15:12] == k)`. -/
def Obligations.DispatchVectorIsOneHot : Prop :=
  ∀ (w : Word) (k : Nat), k < 16 →
    ((dispatchVector w).getLsbD k = true ↔ (w.extractLsb' 12 4).toNat = k)

/-- R109: with STRICT_FIXED_BITS false no encoding is illegal. That what the decoder gives is well formed (never JMP
through R7 nor a TRAP of a handled vector, but RET and the handlers' names) is the model's choice, log 13. -/
def Obligations.EveryWordDecodesByDefault : Prop :=
  ∀ (p : Params) (w : Word), p.strictFixedBits = false → ∃ i, decode p w = .ok i ∧ i.wf p = true

/-- R108: with STRICT_FIXED_BITS false, words that differ only in bits no rule reads decode alike. -/
def Obligations.IgnoredBitsDoNotChangeDecoding : Prop :=
  ∀ (p : Params) (w v : Word), p.strictFixedBits = false →
    w &&& ~~~ignoredBits w = v &&& ~~~ignoredBits w → decode p w = decode p v

/-- R108: with STRICT_FIXED_BITS true, a word of any opcode but 8 and 13 is rejected exactly when one of its fixed
bits is not canonical, and a word of opcode 8 or 13 never is. -/
def Obligations.StrictDecoderRejectsExactlyTheNonCanonical : Prop :=
  ∀ (p : Params) (w : Word), p.strictFixedBits = true →
    (decode p w = .error .nonCanonicalEncoding ↔ ¬reservedOpcode w ∧ w &&& ignoredBits w ≠ fixedValues w)

/-- R101, R104, R107: words of the spec's examples, one or more of each family, decode to what they stand for. That
vector x25 is HALT and x23 has no handler rests on the recommended vectors (R7, R230; log 1, PRESUMED), and the names
RET and HALT for their words on log 13. -/
def Obligations.SpecWordsDecode : Prop :=
  decodeTableWord 16 0x1042 = some (.addReg 0 1 2) ∧ decodeTableWord 16 0x127F = some (.addImm 1 1 0b11111) ∧
  decodeTableWord 16 0x5705 = some (.andReg 3 4 5) ∧ decodeTableWord 16 0x997F = some (.not 4 5) ∧
  decodeTableWord 16 0x0404 = some (.br 0b010 4) ∧ decodeTableWord 16 0xC0C0 = some (.jmp 3) ∧
  decodeTableWord 16 0xC1C0 = some .ret ∧ decodeTableWord 16 0x480F = some (.jsr 15) ∧
  decodeTableWord 16 0x4080 = some (.jsrr 2) ∧ decodeTableWord 16 0xA601 = some (.ldi 3 1) ∧
  decodeTableWord 16 0x6BBF = some (.ldr 5 6 0x3F) ∧ decodeTableWord 16 0x33FE = some (.st 1 0x1FE) ∧
  decodeTableWord 16 0xF025 = some .halt ∧ decodeTableWord 16 0xF023 = some (.trap 0x23) ∧
  decodeTableWord 16 0x8ABC = some .rti ∧ decodeTableWord 16 0xDFFF = some .reserved

/-- R10, R103: extending a 5-, 6-, 9- or 11-bit field follows R10's formula and keeps the field's signed value. -/
def Obligations.SignExtensionKeepsTheSignedValue : Prop :=
  (∀ v : BitVec 5, SextFormula v (sext v) ∧ (sext v).toInt = v.toInt) ∧
  (∀ v : BitVec 6, SextFormula v (sext v) ∧ (sext v).toInt = v.toInt) ∧
  (∀ v : BitVec 9, SextFormula v (sext v) ∧ (sext v).toInt = v.toInt) ∧
  (∀ v : BitVec 11, SextFormula v (sext v) ∧ (sext v).toInt = v.toInt)

/-! ### The step -/

/-- R120: a Running block with no GETC waiting runs the decoded instruction on the state its fetch leaves: PC one
further, memory and poll answers as the read at PC leaves them, everything else as before. -/
def Obligations.StepRunsTheDecodedInstruction : Prop :=
  ∀ (s : State) (i : Instr), s.run = .running → s.inputWait = false → Fetches s i →
    step s = exec i (fetch s).2 ∧ (fetch s).1 = (memRead s.pc s).1 ∧ (fetch s).2.pc = s.pc + 1#16 ∧
    RegsKept s (fetch s).2 ∧ (fetch s).2.cond = s.cond ∧ QuietButRead s.pc s (fetch s).2

/-- R108, R272: under STRICT_FIXED_BITS a fetched word whose fixed bits are not canonical makes the run state
Faulted, with the word and its address; only the fetch has happened besides. -/
def Obligations.StrictStepFaultsOnNonCanonicalWords : Prop :=
  ∀ s : State, s.run = .running → s.inputWait = false → s.params.strictFixedBits = true →
    canonical (fetch s).1 = false →
    step s = .next { (fetch s).2 with run := .faulted (.nonCanonicalEncoding (fetch s).1 s.pc) }

/-- R282, R232: a GETC that waits is taken up again without a fetch, and while nothing answers it no state changes.
That the wait is cut into steps, each of which leaves the state as it is, is the model's choice (log 7). -/
def Obligations.WaitingGetcIsResumed : Prop :=
  ∀ s : State, s.run = .running → s.inputWait = true →
    step s = exec .getc s ∧ (s.readAnswers = [] → step s = .next s)

/-- R26: an instruction that does not transfer control leaves PC at the fetched address plus 1, modulo 65536. -/
def Obligations.NonTransfersContinueAtTheNextAddress : Prop :=
  ∀ (s t : State) (i : Instr), s.inputWait = false → Fetches s i → transfers i = false → step s = .next t →
    t.pc = s.pc + 1#16

/-- R61, R64, R70, R109, R270: a Running block always has a next state, unless the instruction is PUTS or PUTSP and
its walk has no terminator. No address, no encoding and no arithmetic stops it. R282 says that a block waiting in a
GETC makes no step: that a waiting, unanswered GETC has a next state, its own, is the model's choice (log 7). -/
def Obligations.RunningStepAnswersNextOrHangs : Prop :=
  ∀ s : State, s.run = .running →
    (∃ t, step s = .next t) ∨
    (step s = .fault .hang ∧ s.inputWait = false ∧ (Fetches s .puts ∨ Fetches s .putsp))

/-- R31: Halted is set only by the HALT trap, Faulted only by a model fault, Aborted only by an abort of a blocked
character input; from any of them no step is taken and no state changes. -/
def Obligations.RunStateChangesOnlyAsTheSpecSays : Prop :=
  ∀ s : State,
    (s.run ≠ .running → step s = .fault (.stopped s.run)) ∧
    ∀ t : State, step s = .next t →
      s.run = .running ∧
      (t.run = .halted → s.inputWait = false ∧ Fetches s .halt) ∧
      (∀ r, t.run = .faulted r → s.inputWait = false ∧
        ((∃ v, Fetches s (.trap v) ∧ v ∉ s.params.handledVectors ∧ r = .unknownTrapVector v s.pc) ∨
          (decode s.params (fetch s).1 = .error .nonCanonicalEncoding ∧
            r = .nonCanonicalEncoding (fetch s).1 s.pc))) ∧
      (t.run = .aborted → (s.inputWait = true ∨ Fetches s .getc) ∧ s.readAnswers.head? = some .abort)

/-- R29: a step that changes COND fetched one of the seven instructions that update flags, and COND then shows
exactly one flag. -/
def Obligations.OnlyFlagWritersChangeCond : Prop :=
  ∀ s t : State, step s = .next t → t.cond ≠ s.cond →
    s.inputWait = false ∧ (∃ i, Fetches s i ∧ writesFlags i = true) ∧ OneHot t.cond

/-- R30: once exactly one flag is set, it stays so. -/
def Obligations.OneHotConditionIsKept : Prop :=
  ∀ s t : State, OneHot s.cond → step s = .next t → OneHot t.cond

/-- R67, R66: a step that changes a cell other than the two keyboard cells fetched a store, ST, STI or STR. -/
def Obligations.OnlyStoresChangeOrdinaryCells : Prop :=
  ∀ (s t : State) (a : Word), step s = .next t → a ≠ s.params.kbsrAddr → a ≠ s.params.kbdrAddr →
    t.cell a ≠ s.cell a → s.inputWait = false ∧ ∃ i, Fetches s i ∧ stores i = true

/-- R283, R43: the output trace only grows, and only by OUT, PUTS and PUTSP. -/
def Obligations.TraceOnlyGrows : Prop :=
  ∀ s t : State, step s = .next t →
    s.trace <+: t.trace ∧
    (t.trace ≠ s.trace → s.inputWait = false ∧ (Fetches s .out ∨ Fetches s .puts ∨ Fetches s .putsp))

/-- R32: no step reads or writes COUNT, and nothing depends on it: a step from the state with another COUNT gives
the same outcome with that COUNT. Nor does a step change the parameters, which are arguments of the model (R7). -/
def Obligations.CountIsUnobservable : Prop :=
  ∀ (s : State) (c : Word),
    step { s with count := c } = mapNext (fun t => { t with count := c }) (step s) ∧
    ∀ t, step s = .next t → t.count = s.count ∧ t.params = s.params

/-- Every step keeps the model's invariant: memory in canonical form, the constraints of R7 on the parameters, and a
GETC waiting only in a Running block. The canonical form of memory is the model's own (log 11). -/
def Obligations.StepKeepsTheInvariant : Prop :=
  ∀ s t : State, Inv s → step s = .next t → Inv t

/-- The invariant holds at reset, for every value that the spec leaves open there and for `State.reset`. -/
def Obligations.ResetMeetsTheInvariant : Prop :=
  Inv State.reset ∧
  ∀ (p : Params) (regs : Vector Word 8) (cond : Cond) (count : Word) (polls : List (Option Byte))
    (reads : List ReadAnswer), p.wf = true → Inv (.powerOn p regs cond count polls reads)

/-! ### The memory arbiter -/

/-- R63: MemRead routes on the address. At KBDR_ADDR it polls: on a byte, KBSR is x8000 and KBDR the zero-extended
byte, which is returned; on none, KBSR is 0 and KBDR is kept and returned. Everywhere else it is a plain read. The
premise is R7's constraint KBSR_ADDR ≠ KBDR_ADDR. How the answer is drawn is the model's choice (log 6). -/
def Obligations.MemReadRoutesOnTheAddress : Prop :=
  ∀ (s : State) (a : Word), s.params.kbsrAddr ≠ s.params.kbdrAddr →
    let t := (memRead a s).2
    let v := (memRead a s).1
    RegsKept s t ∧ t.pc = s.pc ∧ t.cond = s.cond ∧ RestKept s t ∧
    (a ≠ s.params.kbdrAddr → v = s.cell a ∧ CellsKept s t ∧ PollsKept s t) ∧
    (a = s.params.kbdrAddr →
      t.pollAnswers = s.pollAnswers.tail ∧ t.pollCount = s.pollCount + 1 ∧
      (∀ c, c ≠ s.params.kbsrAddr → c ≠ s.params.kbdrAddr → t.cell c = s.cell c) ∧
      (∀ b, PollFinds s (some b) →
        t.cell s.params.kbsrAddr = 0x8000#16 ∧ t.cell s.params.kbdrAddr = b.zeroExtend 16 ∧
        v = b.zeroExtend 16) ∧
      (PollFinds s none →
        t.cell s.params.kbsrAddr = 0#16 ∧ t.cell s.params.kbdrAddr = s.cell s.params.kbdrAddr ∧
        v = s.cell s.params.kbdrAddr))

/-- R65: MemWrite stores the value at the address, the keyboard cells included, with no side effect. -/
def Obligations.MemWriteIsAPlainStore : Prop :=
  ∀ (s : State) (a v : Word),
    (memWrite a v s).cell a = v ∧ CellsKeptBut a s (memWrite a v s) ∧ RegsKept s (memWrite a v s) ∧
    (memWrite a v s).pc = s.pc ∧ (memWrite a v s).cond = s.cond ∧
    PollsKept s (memWrite a v s) ∧ RestKept s (memWrite a v s)

/-- R78: a store is seen by the next fetch from the same address; at KBDR_ADDR the fetch polls first (R67). -/
def Obligations.FetchSeesTheLastStore : Prop :=
  ∀ (s : State) (a v : Word), a ≠ s.params.kbdrAddr → (fetch ((memWrite a v s).setPc a)).1 = v

/-- Canonical memories that read alike at every address are equal, so the state of memory is what can be read of
it. The canonical form is the model's own (log 11). -/
def Obligations.CanonicalMemoriesThatReadAlikeAreEqual : Prop :=
  ∀ m n : Memory, m.wf = true → n.wf = true → (∀ a, a < 65536 → m.read a = n.read a) → m = n

/-! ### Registers, flags, reset, image -/

/-- R22: a register write stores the value and a read returns the stored value, for every register alike. -/
def Obligations.RegistersHoldWhatIsWritten : Prop :=
  ∀ (s : State) (i : RegIdx) (v : Word), (s.setReg i v).reg i = v ∧ RegsKeptBut i s (s.setReg i v)

/-- R28: setcc writes Z for zero, N for a set bit 15, P otherwise, and exactly one bit is set. -/
def Obligations.SetccShowsTheSign : Prop :=
  ∀ (s : State) (v : Word), FlagsShow v (s.setCc v).cond ∧ OneHot (s.setCc v).cond

/-- R37 to R39, R41 to R43: the reset state, for every draw of the registers and of COND and every value of the
parameters. That `State.reset` is one of these states, at the recommended parameters (log 1), with values for the
draws (logs 2 to 4) and no console answers listed (log 6), is the model's choice. -/
def Obligations.ResetStateIsTheSpecs : Prop :=
  (∀ (p : Params) (regs : Vector Word 8) (cond : Cond) (count : Word) (polls : List (Option Byte))
    (reads : List ReadAnswer),
    let s := State.powerOn p regs cond count polls reads
    s.pc = p.bootPc ∧ s.run = .running ∧ s.trace = [] ∧ (∀ a, s.cell a = 0#16) ∧ s.regs = regs ∧
    s.cond = cond ∧ s.params = p) ∧
  ∃ regs cond count, State.reset = .powerOn recommended regs cond count [] []

/-- R301: an image of at least two bytes and even length writes word k to the cell (origin + k) modulo 65536; a
later word wins; every other cell and everything else stands. Any other image is refused. -/
def Obligations.ImageLoadWritesItsWords : Prop :=
  ∀ (image : List Byte) (s : State),
    (image.length < 2 ∨ image.length % 2 = 1 → ∃ r, load image s = .error r) ∧
    (2 ≤ image.length → image.length % 2 = 0 →
      let origin : Word := image.getD 0 0 ++ image.getD 1 0
      let count := (image.length - 2) / 2
      let cellOf (k : Nat) : Word := origin + BitVec.ofNat 16 k
      ∃ t, load image s = .ok t ∧ t = { s with mem := t.mem } ∧
        (∀ k, k < count → (∀ j, k < j → j < count → cellOf j ≠ cellOf k) →
          t.cell (cellOf k) = (image.getD (2 + 2 * k) 0 ++ image.getD (3 + 2 * k) 0 : Word)) ∧
        ∀ a, (∀ k, k < count → cellOf k ≠ a) → t.cell a = s.cell a)

/-- R302: a launch that is not refused starts at BOOT_PC in run state Running, whatever the image's origin. -/
def Obligations.LaunchStartsAtTheBootAddress : Prop :=
  ∀ (p : Params) (regs : Vector Word 8) (cond : Cond) (count : Word) (polls : List (Option Byte))
    (reads : List ReadAnswer) (image : List Byte) (s : State),
    launch p regs cond count polls reads image = .ok s →
    s.pc = p.bootPc ∧ s.run = .running ∧ s.regs = regs ∧ s.cond = cond ∧ s.trace = []

/-- R134, R180: an offset the assembler encodes for a label in reach, 9 bits for BR, LD, LDI, LEA, ST and STI and 11
for JSR, leads back to the label when the instruction executes at its address. -/
def Obligations.AssembledOffsetsReachTheirLabels : Prop :=
  ∀ (syms : Symbols) (line : Nat) (a target : Word) (name : String) (nzp : Cond),
    syms.lookup name = some (.address target) →
    (-256 ≤ (target - (a + 1#16)).toInt → (target - (a + 1#16)).toInt ≤ 255 →
      ∃ off, a + 1#16 + sext off = target ∧
        asmInstr syms line a (.br nzp) [.name name] = .ok (.br nzp off) ∧
        ∀ (regName : String) (r : RegIdx), syms.lookup regName = some (.register r) →
          asmInstr syms line a .ld [.name regName, .name name] = .ok (.ld r off) ∧
          asmInstr syms line a .ldi [.name regName, .name name] = .ok (.ldi r off) ∧
          asmInstr syms line a .lea [.name regName, .name name] = .ok (.lea r off) ∧
          asmInstr syms line a .st [.name regName, .name name] = .ok (.st r off) ∧
          asmInstr syms line a .sti [.name regName, .name name] = .ok (.sti r off)) ∧
    (-1024 ≤ (target - (a + 1#16)).toInt → (target - (a + 1#16)).toInt ≤ 1023 →
      ∃ off, asmInstr syms line a .jsr [.name name] = .ok (.jsr off) ∧ a + 1#16 + sext off = target)

/-! ### Operate instructions -/

/-- R162, R163: ADD in register and in immediate mode, for every choice of registers; a source may be the
destination. -/
def Obligations.AddResult : Prop :=
  (∀ (d a b : RegIdx) (s : State), ∃ t, exec (.addReg d a b) s = .next t ∧
    t.reg d = s.reg a + s.reg b ∧ FlagsShow (s.reg a + s.reg b) t.cond ∧
    t.pc = s.pc ∧ RegsKeptBut d s t ∧ Quiet s t) ∧
  ∀ (d a : RegIdx) (imm : BitVec 5) (s : State), ∃ t, exec (.addImm d a imm) s = .next t ∧
    t.reg d = s.reg a + sext imm ∧ FlagsShow (s.reg a + sext imm) t.cond ∧
    t.pc = s.pc ∧ RegsKeptBut d s t ∧ Quiet s t

/-- R164, R165: AND in register and in immediate mode. -/
def Obligations.AndResult : Prop :=
  (∀ (d a b : RegIdx) (s : State), ∃ t, exec (.andReg d a b) s = .next t ∧
    t.reg d = s.reg a &&& s.reg b ∧ FlagsShow (s.reg a &&& s.reg b) t.cond ∧
    t.pc = s.pc ∧ RegsKeptBut d s t ∧ Quiet s t) ∧
  ∀ (d a : RegIdx) (imm : BitVec 5) (s : State), ∃ t, exec (.andImm d a imm) s = .next t ∧
    t.reg d = s.reg a &&& sext imm ∧ FlagsShow (s.reg a &&& sext imm) t.cond ∧
    t.pc = s.pc ∧ RegsKeptBut d s t ∧ Quiet s t

/-- R166: NOT. -/
def Obligations.NotResult : Prop :=
  ∀ (d a : RegIdx) (s : State), ∃ t, exec (.not d a) s = .next t ∧
    t.reg d = ~~~s.reg a ∧ FlagsShow (~~~s.reg a) t.cond ∧
    t.pc = s.pc ∧ RegsKeptBut d s t ∧ Quiet s t

/-! ### Control transfer -/

/-- R181: BR is taken exactly when the mask and COND have a bit in common; PC, which holds the address after the BR,
moves by the offset. Nothing else changes. -/
def Obligations.BranchResult : Prop :=
  ∀ (nzp : Cond) (off : BitVec 9) (s : State), ∃ t, exec (.br nzp off) s = .next t ∧
    ((∃ k, k < 3 ∧ nzp.getLsbD k = true ∧ s.cond.getLsbD k = true) → t.pc = s.pc + sext off) ∧
    ((∀ k, k < 3 → nzp.getLsbD k = true → s.cond.getLsbD k = false) → t.pc = s.pc) ∧
    t.cond = s.cond ∧ RegsKept s t ∧ Quiet s t

/-- R182, R183: JMP goes to its base register's value and RET to R7's; RET is JMP R7. -/
def Obligations.JumpResult : Prop :=
  (∀ (b : RegIdx) (s : State), exec (.jmp b) s = .next { s with pc := s.reg b }) ∧
  ∀ s : State, exec .ret s = .next { s with pc := s.reg 7#3 } ∧ exec .ret s = exec (.jmp 7#3) s

/-- R184: JSR links the incremented PC in R7 and moves PC by the offset from it. -/
def Obligations.JsrResult : Prop :=
  ∀ (off : BitVec 11) (s : State), ∃ t, exec (.jsr off) s = .next t ∧
    t.reg 7#3 = s.pc ∧ t.pc = s.pc + sext off ∧ t.cond = s.cond ∧ RegsKeptBut 7#3 s t ∧ Quiet s t

/-- R185: JSRR links the incremented PC in R7 and goes to its base register; with base R7 the setting
JSRR_LINK_FIRST decides between the link and R7's old value. -/
def Obligations.JsrrResult : Prop :=
  ∀ (b : RegIdx) (s : State), ∃ t, exec (.jsrr b) s = .next t ∧
    t.reg 7#3 = s.pc ∧ t.pc = (if b = 7#3 ∧ s.params.jsrrLinkFirst = true then s.pc else s.reg b) ∧
    t.cond = s.cond ∧ RegsKeptBut 7#3 s t ∧ Quiet s t

/-- R260, R261: opcodes 8 and 13 change nothing. -/
def Obligations.ReservedOpcodesAreNoOps : Prop :=
  ∀ s : State, exec .rti s = .next s ∧ exec .reserved s = .next s

/-! ### Loads and stores -/

/-- R201: LD reads the PC-relative address through the arbiter. -/
def Obligations.LdResult : Prop :=
  ∀ (d : RegIdx) (off : BitVec 9) (s : State),
    let ea := s.pc + sext off
    ∃ t, exec (.ld d off) s = .next t ∧ t.reg d = (memRead ea s).1 ∧ FlagsShow (memRead ea s).1 t.cond ∧
      t.pc = s.pc ∧ RegsKeptBut d s t ∧ QuietButRead ea s t

/-- R202: LDI reads a pointer at the PC-relative address, then the word it points to, each through the arbiter. -/
def Obligations.LdiResult : Prop :=
  ∀ (d : RegIdx) (off : BitVec 9) (s : State),
    let p := memRead (s.pc + sext off) s
    let v := memRead p.1 p.2
    ∃ t, exec (.ldi d off) s = .next t ∧ t.reg d = v.1 ∧ FlagsShow v.1 t.cond ∧ t.pc = s.pc ∧
      RegsKeptBut d s t ∧ CellsKept v.2 t ∧ PollsKept v.2 t ∧ RestKept s t

/-- R203: LEA gives the PC-relative address itself, sets flags, and does not access memory. -/
def Obligations.LeaResult : Prop :=
  ∀ (d : RegIdx) (off : BitVec 9) (s : State), ∃ t, exec (.lea d off) s = .next t ∧
    t.reg d = s.pc + sext off ∧ FlagsShow (s.pc + sext off) t.cond ∧ t.pc = s.pc ∧ RegsKeptBut d s t ∧ Quiet s t

/-- R206: LDR reads base plus offset through the arbiter; the base is read before the destination is written. -/
def Obligations.LdrResult : Prop :=
  ∀ (d b : RegIdx) (off : BitVec 6) (s : State),
    let ea := s.reg b + sext off
    ∃ t, exec (.ldr d b off) s = .next t ∧ t.reg d = (memRead ea s).1 ∧ FlagsShow (memRead ea s).1 t.cond ∧
      t.pc = s.pc ∧ RegsKeptBut d s t ∧ QuietButRead ea s t

/-- R204: ST stores at the PC-relative address and nowhere else, and writes no register and no flag. -/
def Obligations.StResult : Prop :=
  ∀ (r : RegIdx) (off : BitVec 9) (s : State),
    let ea := s.pc + sext off
    ∃ t, exec (.st r off) s = .next t ∧ t.cell ea = s.reg r ∧ CellsKeptBut ea s t ∧
      t.pc = s.pc ∧ t.cond = s.cond ∧ RegsKept s t ∧ PollsKept s t ∧ RestKept s t

/-- R205: STI reads a pointer at the PC-relative address through the arbiter and stores where it points; every other
cell is what the pointer read left. -/
def Obligations.StiResult : Prop :=
  ∀ (r : RegIdx) (off : BitVec 9) (s : State),
    let p := memRead (s.pc + sext off) s
    ∃ t, exec (.sti r off) s = .next t ∧ t.cell p.1 = s.reg r ∧ CellsKeptBut p.1 p.2 t ∧
      t.pc = s.pc ∧ t.cond = s.cond ∧ RegsKept s t ∧ PollsKept p.2 t ∧ RestKept s t

/-- R207: STR stores at base plus offset and nowhere else. -/
def Obligations.StrResult : Prop :=
  ∀ (r b : RegIdx) (off : BitVec 6) (s : State),
    let ea := s.reg b + sext off
    ∃ t, exec (.str r b off) s = .next t ∧ t.cell ea = s.reg r ∧ CellsKeptBut ea s t ∧
      t.pc = s.pc ∧ t.cond = s.cond ∧ RegsKept s t ∧ PollsKept s t ∧ RestKept s t

/-! ### TRAP -/

/-- R231: the multiplexer selects the handler of each handled vector, the vectors being distinct (R7); so a TRAP of
OUT's vector appends R0 to the trace and a TRAP of HALT's makes the run state Halted. -/
def Obligations.MultiplexerSelectsTheHandlers : Prop :=
  ∀ s : State, s.params.wf = true →
    exec (.trap s.params.tvGetc) s = exec .getc s ∧ exec (.trap s.params.tvOut) s = exec .out s ∧
    exec (.trap s.params.tvPuts) s = exec .puts s ∧ exec (.trap s.params.tvPutsp) s = exec .putsp s ∧
    exec (.trap s.params.tvHalt) s = exec .halt s ∧
    exec (.trap s.params.tvOut) s = .next { s with trace := s.trace ++ [s.reg 0#3] } ∧
    exec (.trap s.params.tvHalt) s = .next { s with run := .halted }

/-- R237, R271: a TRAP whose vector has no handler makes the run state Faulted, with the vector and the TRAP's
address, and changes nothing else; PC keeps the incremented value. -/
def Obligations.UnhandledTrapFaults : Prop :=
  ∀ (v : Byte) (s : State), v ∉ s.params.handledVectors →
    exec (.trap v) s = .next { s with run := .faulted (.unknownTrapVector v (s.pc - 1#16)) }

/-- R232: GETC with a byte supplied writes it to R0, zero-extended, consumes it, and changes no flag, no other
register and no cell. The list the byte is taken from and the waiting flag that is cleared are the model's own fields
(logs 6 and 7). -/
def Obligations.GetcReadsOneByte : Prop :=
  ∀ (s : State) (b : Byte) (rest : List ReadAnswer), s.readAnswers = .byte b :: rest →
    ∃ t, exec .getc s = .next t ∧ t.reg 0#3 = b.zeroExtend 16 ∧ RegsKeptBut 0#3 s t ∧
      t = { s with regs := t.regs, readAnswers := rest, inputWait := false }

/-- R284: an abort of a GETC makes the run state Aborted, and R0 is not written; the host then gets the exit status
ABORT_STATUS, which is not zero. The list the abort is taken from and the waiting flag that is cleared are the model's
own fields (logs 6 and 7), and the status is the model's open constant (log 12). -/
def Obligations.AbortedGetcWritesNothing : Prop :=
  ∀ (s : State) (rest : List ReadAnswer), s.readAnswers = .abort :: rest →
    ∃ t, exec .getc s = .next t ∧ t = { s with run := .aborted, readAnswers := rest, inputWait := false } ∧
      t.exitStatus = some Config.abortStatus ∧ Config.abortStatus ≠ 0

/-- R282: a GETC that nothing answers waits, and changes nothing but that. The flag that marks the wait, and the step
that enters it, are the model's choice (log 7). -/
def Obligations.UnansweredGetcWaits : Prop :=
  ∀ s : State, s.readAnswers = [] → exec .getc s = .next { s with inputWait := true }

/-- R233: OUT appends the whole value of R0 to the trace and changes nothing else. -/
def Obligations.OutAppendsToTheTrace : Prop :=
  ∀ s : State, exec .out s = .next { s with trace := s.trace ++ [s.reg 0#3] }

/-- R240: HALT makes the run state Halted and changes nothing else. -/
def Obligations.HaltStopsTheBlock : Prop :=
  ∀ s : State, exec .halt s = .next { s with run := .halted }

/-- R234: PUTS of a string in memory away from KBDR: its words, one after the other from the address in R0 (wrapping
modulo 65536), up to a zero word. -/
def Obligations.PutsPrintsTheStoredString : Prop :=
  ∀ (s : State) (text : List Word), text.length < 65536 → 0#16 ∉ text →
    (∀ k, k < text.length → s.cell (s.reg 0#3 + BitVec.ofNat 16 k) = text.getD k 0) →
    s.cell (s.reg 0#3 + BitVec.ofNat 16 text.length) = 0#16 →
    (∀ k, k ≤ text.length → s.reg 0#3 + BitVec.ofNat 16 k ≠ s.params.kbdrAddr) →
    exec .puts s = .next { s with trace := s.trace ++ text }

/-- R234, R67: PUTS in every case that ends, KBDR on the way or not: it makes reads through the arbiter up to the
first zero word, outputs the words before it, and leaves memory and the poll answers as the reads leave them. -/
def Obligations.PutsOutputsItsReads : Prop :=
  ∀ (s : State) (n : Nat), n < 65536 → (∀ k, k < n → nthRead k (s.reg 0#3) s ≠ 0#16) →
    nthRead n (s.reg 0#3) s = 0#16 →
    exec .puts s = .next { afterReads (n + 1) (s.reg 0#3) s with
      trace := s.trace ++ (List.range n).map fun k => nthRead k (s.reg 0#3) s }

/-- R236, R67: PUTSP in every case that ends: two characters a word, low byte first, up to the first zero byte. -/
def Obligations.PutspOutputsItsReads : Prop :=
  ∀ (s : State) (n : Nat), n < 65536 →
    (∀ k, k < n → lowByte (nthRead k (s.reg 0#3) s) ≠ 0#8 ∧ highByte (nthRead k (s.reg 0#3) s) ≠ 0#8) →
    let last := nthRead n (s.reg 0#3) s
    let full := (List.range n).flatMap fun k => packed (nthRead k (s.reg 0#3) s)
    (lowByte last = 0#8 → exec .putsp s = .next { afterReads (n + 1) (s.reg 0#3) s with
      trace := s.trace ++ full }) ∧
    (lowByte last ≠ 0#8 → highByte last = 0#8 → exec .putsp s = .next { afterReads (n + 1) (s.reg 0#3) s with
      trace := s.trace ++ full ++ [zext8 (lowByte last)] })

/-- R235, R288: PUTS and PUTSP hang exactly when 65536 reads bring no terminator. -/
def Obligations.WalksHangExactlyWithoutTerminator : Prop :=
  ∀ s : State,
    (exec .puts s = .fault .hang ↔ ∀ k, k < 65536 → nthRead k (s.reg 0#3) s ≠ 0#16) ∧
    (exec .putsp s = .fault .hang ↔ ∀ k, k < 65536 →
      lowByte (nthRead k (s.reg 0#3) s) ≠ 0#8 ∧ highByte (nthRead k (s.reg 0#3) s) ≠ 0#8)

/-- R238: no trap writes COND or R7 or saves PC or moves it; only GETC writes a register, R0; no trap writes memory
but for the keyboard cells, which PUTS and PUTSP change through the poll. -/
def Obligations.TrapsChangeNothingElse : Prop :=
  ∀ (i : Instr) (s t : State), isTrap i = true → exec i s = .next t →
    t.cond = s.cond ∧ t.pc = s.pc ∧ RegsKeptBut 0#3 s t ∧
    (t.reg 0#3 ≠ s.reg 0#3 → i = .getc ∨ i = .trap s.params.tvGetc) ∧
    (∀ a, a ≠ s.params.kbsrAddr → a ≠ s.params.kbdrAddr → t.cell a = s.cell a) ∧
    (¬CellsKept s t → i = .puts ∨ i = .putsp ∨ i = .trap s.params.tvPuts ∨ i = .trap s.params.tvPutsp)

end
end

