-- ==== Sys2Proof/Laws/Encoding.lean ====
section
/-! SUPPORT. Cutting a field out of a word that is written as its fields side by side: one lemma for a field in the
low part, one for a field in the high part, then the fields of each format of R104. -/

namespace Sys2Proof

/-- A field that lies in the low part of a word is that field of the low part. -/
theorem extract_low {n m k l a : Nat} (x : BitVec n) (y : BitVec m) {z : BitVec k} (h : a + l ≤ m)
    (hk : k = n + m) (hz : z = (x ++ y).cast hk.symm) : z.extractLsb' a l = y.extractLsb' a l := by
  subst hk hz
  ext i hi
  have : a + i < m := by omega
  simp [BitVec.getLsbD_append, this]

/-- A field that lies in the high part of a word is that field of the high part, at its own offset. -/
theorem extract_high {n m k l a : Nat} (x : BitVec n) (y : BitVec m) {z : BitVec k} (h : m ≤ a)
    (hk : k = n + m) (hz : z = (x ++ y).cast hk.symm) : z.extractLsb' a l = x.extractLsb' (a - m) l := by
  subst hk hz
  ext i hi
  have : ¬a + i < m := by omega
  have e : a + i - m = a - m + i := by omega
  simp [BitVec.getLsbD_append, this, e]

theorem extract_all {n : Nat} (x : BitVec n) : x.extractLsb' 0 n = x := by
  simp

/-- A single bit as a field of width one. -/
theorem getLsbD_extract {k : Nat} (z : BitVec k) (a : Nat) : z.getLsbD a = (z.extractLsb' a 1).getLsbD 0 := by
  simp

/-! ### Opcode, a 3-bit field, a 9-bit field: BR, LD, ST, LDI, STI, LEA -/

section regOff
variable (o : BitVec 4) (r : BitVec 3) (x : BitVec 9)

theorem regOff_opcode : (o ++ r ++ x : Word).extractLsb' 12 4 = o :=
  (extract_high (m := 9) _ _ (by decide) rfl rfl).trans <|
    (extract_high (m := 3) _ _ (by decide) rfl rfl).trans (extract_all _)

theorem regOff_reg : (o ++ r ++ x : Word).extractLsb' 9 3 = r :=
  (extract_high (m := 9) _ _ (by decide) rfl rfl).trans <|
    (extract_low (m := 3) _ _ (by decide) rfl rfl).trans (extract_all _)

theorem regOff_off : (o ++ r ++ x : Word).extractLsb' 0 9 = x :=
  (extract_low (m := 9) _ _ (by decide) rfl rfl).trans (extract_all _)

end regOff

/-! ### Opcode, two register fields, a 6-bit field: LDR, STR, NOT -/

section regReg
variable (o : BitVec 4) (r q : BitVec 3) (x : BitVec 6)

theorem regReg_opcode : (o ++ r ++ q ++ x : Word).extractLsb' 12 4 = o :=
  (extract_high (m := 6) _ _ (by decide) rfl rfl).trans <|
    (extract_high (m := 3) _ _ (by decide) rfl rfl).trans <|
      (extract_high (m := 3) _ _ (by decide) rfl rfl).trans (extract_all _)

theorem regReg_r0 : (o ++ r ++ q ++ x : Word).extractLsb' 9 3 = r :=
  (extract_high (m := 6) _ _ (by decide) rfl rfl).trans <|
    (extract_high (m := 3) _ _ (by decide) rfl rfl).trans <|
      (extract_low (m := 3) _ _ (by decide) rfl rfl).trans (extract_all _)

theorem regReg_r1 : (o ++ r ++ q ++ x : Word).extractLsb' 6 3 = q :=
  (extract_high (m := 6) _ _ (by decide) rfl rfl).trans <|
    (extract_low (m := 3) _ _ (by decide) rfl rfl).trans (extract_all _)

theorem regReg_off : (o ++ r ++ q ++ x : Word).extractLsb' 0 6 = x :=
  (extract_low (m := 6) _ _ (by decide) rfl rfl).trans (extract_all _)

end regReg

/-! ### Opcode, two register fields, three fixed bits, a register field: ADD and AND, register mode -/

section threeReg
variable (o : BitVec 4) (r q : BitVec 3) (z : BitVec 3) (t : BitVec 3)

theorem threeReg_opcode : (o ++ r ++ q ++ z ++ t : Word).extractLsb' 12 4 = o :=
  (extract_high (m := 3) _ _ (by decide) rfl rfl).trans <|
    (extract_high (m := 3) _ _ (by decide) rfl rfl).trans <|
      (extract_high (m := 3) _ _ (by decide) rfl rfl).trans <|
        (extract_high (m := 3) _ _ (by decide) rfl rfl).trans (extract_all _)

theorem threeReg_r0 : (o ++ r ++ q ++ z ++ t : Word).extractLsb' 9 3 = r :=
  (extract_high (m := 3) _ _ (by decide) rfl rfl).trans <|
    (extract_high (m := 3) _ _ (by decide) rfl rfl).trans <|
      (extract_high (m := 3) _ _ (by decide) rfl rfl).trans <|
        (extract_low (m := 3) _ _ (by decide) rfl rfl).trans (extract_all _)

theorem threeReg_r1 : (o ++ r ++ q ++ z ++ t : Word).extractLsb' 6 3 = q :=
  (extract_high (m := 3) _ _ (by decide) rfl rfl).trans <|
    (extract_high (m := 3) _ _ (by decide) rfl rfl).trans <|
      (extract_low (m := 3) _ _ (by decide) rfl rfl).trans (extract_all _)

/-- The fixed bits: `imm_sel` and the two bits below it. -/
theorem threeReg_fixed (a l : Nat) (h : 3 ≤ a) (h' : a - 3 + l ≤ 3) :
    (o ++ r ++ q ++ z ++ t : Word).extractLsb' a l = z.extractLsb' (a - 3) l :=
  (extract_high (m := 3) _ _ h rfl rfl).trans (extract_low (m := 3) _ _ h' rfl rfl)

theorem threeReg_r2 : (o ++ r ++ q ++ z ++ t : Word).extractLsb' 0 3 = t :=
  (extract_low (m := 3) _ _ (by decide) rfl rfl).trans (extract_all _)

end threeReg

/-! ### Opcode, two register fields, `imm_sel`, a 5-bit field: ADD and AND, immediate mode -/

section regImm
variable (o : BitVec 4) (r q : BitVec 3) (z : BitVec 1) (x : BitVec 5)

theorem regImm_opcode : (o ++ r ++ q ++ z ++ x : Word).extractLsb' 12 4 = o :=
  (extract_high (m := 5) _ _ (by decide) rfl rfl).trans <|
    (extract_high (m := 1) _ _ (by decide) rfl rfl).trans <|
      (extract_high (m := 3) _ _ (by decide) rfl rfl).trans <|
        (extract_high (m := 3) _ _ (by decide) rfl rfl).trans (extract_all _)

theorem regImm_r0 : (o ++ r ++ q ++ z ++ x : Word).extractLsb' 9 3 = r :=
  (extract_high (m := 5) _ _ (by decide) rfl rfl).trans <|
    (extract_high (m := 1) _ _ (by decide) rfl rfl).trans <|
      (extract_high (m := 3) _ _ (by decide) rfl rfl).trans <|
        (extract_low (m := 3) _ _ (by decide) rfl rfl).trans (extract_all _)

theorem regImm_r1 : (o ++ r ++ q ++ z ++ x : Word).extractLsb' 6 3 = q :=
  (extract_high (m := 5) _ _ (by decide) rfl rfl).trans <|
    (extract_high (m := 1) _ _ (by decide) rfl rfl).trans <|
      (extract_low (m := 3) _ _ (by decide) rfl rfl).trans (extract_all _)

theorem regImm_sel : (o ++ r ++ q ++ z ++ x : Word).extractLsb' 5 1 = z :=
  (extract_high (m := 5) _ _ (by decide) rfl rfl).trans <|
    (extract_low (m := 1) _ _ (by decide) rfl rfl).trans (extract_all _)

theorem regImm_imm : (o ++ r ++ q ++ z ++ x : Word).extractLsb' 0 5 = x :=
  (extract_low (m := 5) _ _ (by decide) rfl rfl).trans (extract_all _)

end regImm

/-! ### Five bits and an 11-bit field: JSR -/

section longOff
variable (o : BitVec 5) (x : BitVec 11)

theorem longOff_high (a l : Nat) (h : 11 ≤ a) :
    (o ++ x : Word).extractLsb' a l = o.extractLsb' (a - 11) l :=
  extract_high (m := 11) _ _ h rfl rfl

theorem longOff_off : (o ++ x : Word).extractLsb' 0 11 = x :=
  (extract_low (m := 11) _ _ (by decide) rfl rfl).trans (extract_all _)

end longOff

/-! ### Seven bits, a register field, six bits: JSRR, JMP -/

section baseOnly
variable (o : BitVec 7) (r : BitVec 3) (x : BitVec 6)

theorem baseOnly_high (a l : Nat) (h : 9 ≤ a) :
    (o ++ r ++ x : Word).extractLsb' a l = o.extractLsb' (a - 6 - 3) l :=
  (extract_high (m := 6) _ _ (by omega) rfl rfl).trans (extract_high (m := 3) _ _ (by omega) rfl rfl)

theorem baseOnly_reg : (o ++ r ++ x : Word).extractLsb' 6 3 = r :=
  (extract_high (m := 6) _ _ (by decide) rfl rfl).trans <|
    (extract_low (m := 3) _ _ (by decide) rfl rfl).trans (extract_all _)

theorem baseOnly_low : (o ++ r ++ x : Word).extractLsb' 0 6 = x :=
  (extract_low (m := 6) _ _ (by decide) rfl rfl).trans (extract_all _)

end baseOnly

/-! ### Eight bits and a vector: TRAP -/

section vector
variable (o : BitVec 8) (v : BitVec 8)

theorem vector_high (a l : Nat) (h : 8 ≤ a) : (o ++ v : Word).extractLsb' a l = o.extractLsb' (a - 8) l :=
  extract_high (m := 8) _ _ h rfl rfl

theorem vector_low : (o ++ v : Word).extractLsb' 0 8 = v :=
  (extract_low (m := 8) _ _ (by decide) rfl rfl).trans (extract_all _)

end vector

end Sys2Proof
end

