-- ==== Sys2Proof/Laws/Memory.lean ====
section
/-! SUPPORT. Memory as a list of cells: a read after a write, the canonical form, and that canonical memories which
read alike are equal. -/

namespace Sys2Proof.Machine

theorem Memory.read_erase_same (m : Memory) (a : Nat) : (m.erase a).read a = 0#16 := by
  induction m with
  | nil => rfl
  | cons c rest ih =>
    obtain ⟨k, v⟩ := c
    by_cases h : k = a
    · simpa [Memory.erase, h] using ih
    · have h' : ¬a = k := fun e => h e.symm
      simpa [Memory.erase, Memory.read, h, h'] using ih

theorem Memory.read_erase_other (m : Memory) {a b : Nat} (h : b ≠ a) : (m.erase a).read b = m.read b := by
  induction m with
  | nil => rfl
  | cons c rest ih =>
    obtain ⟨k, v⟩ := c
    by_cases hk : k = a
    · have hb : ¬b = k := fun e => h (e.trans hk)
      simpa [Memory.erase, Memory.read, hk, h] using ih
    · by_cases hb : b = k
      · simp [Memory.erase, Memory.read, hk, hb]
      · simpa [Memory.erase, Memory.read, hk, hb] using ih

theorem Memory.read_insert_other (m : Memory) {a b : Nat} (v : Word) (h : b ≠ a) :
    (m.insert a v).read b = m.read b := by
  induction m with
  | nil => simp [Memory.insert, Memory.read, h]
  | cons c rest ih =>
    obtain ⟨k, w⟩ := c
    by_cases hk : a < k <;> simp [Memory.insert, Memory.read, hk, h, ih]

/-- An insertion is read back where no entry has its address. -/
theorem Memory.read_insert_same (m : Memory) (a : Nat) (v : Word) (h : ∀ c ∈ m, c.1 ≠ a) :
    (m.insert a v).read a = v := by
  induction m with
  | nil => simp [Memory.insert, Memory.read]
  | cons c rest ih =>
    obtain ⟨k, w⟩ := c
    have hk : a ≠ k := fun e => h (k, w) (by simp) e.symm
    have hr := ih fun c hc => h c (List.mem_cons_of_mem _ hc)
    by_cases hlt : a < k <;> simp [Memory.insert, Memory.read, hlt, hk, hr]

theorem Memory.erase_ne {m : Memory} {a : Nat} : ∀ c ∈ m.erase a, c.1 ≠ a := by
  intro c hc
  simpa using (List.mem_filter.mp hc).2

/-- A read after a write to the same cell gives the value written; every other cell reads as before. -/
theorem Memory.read_write (m : Memory) (a b : Nat) (v : Word) :
    (m.write a v).read b = if b = a then v else m.read b := by
  by_cases hb : b = a
  · subst hb
    by_cases hv : v = 0#16
    · simp [Memory.write, hv, Memory.read_erase_same]
    · simp [Memory.write, hv, Memory.read_insert_same _ _ _ Memory.erase_ne]
  · by_cases hv : v = 0#16
    · simp [Memory.write, hv, hb, Memory.read_erase_other]
    · simp [Memory.write, hv, hb, Memory.read_insert_other, Memory.read_erase_other]

/-! ### The canonical form -/

/-- The canonical form, in words: rising addresses below 65536 and no zero. -/
theorem Memory.wf_iff (m : Memory) :
    m.wf = true ↔ m.Pairwise (fun c e => c.1 < e.1) ∧ ∀ c ∈ m, c.1 < 65536 ∧ c.2 ≠ 0#16 := by
  simp [Memory.wf]

theorem Memory.mem_insert {m : Memory} {a : Nat} {v : Word} {c : Nat × Word} :
    c ∈ m.insert a v ↔ c = (a, v) ∨ c ∈ m := by
  induction m with
  | nil => simp [Memory.insert]
  | cons e rest ih =>
    obtain ⟨k, w⟩ := e
    by_cases hlt : a < k
    · simp [Memory.insert, hlt]
    · simp only [Memory.insert, hlt, if_false, List.mem_cons, ih]
      constructor
      · rintro (h | h | h) <;> simp [h]
      · rintro (h | h | h) <;> simp [h]

theorem Memory.insert_pairwise {m : Memory} {a : Nat} {v : Word}
    (hm : m.Pairwise fun c e => c.1 < e.1) (ha : ∀ c ∈ m, c.1 ≠ a) :
    (m.insert a v).Pairwise fun c e => c.1 < e.1 := by
  induction m with
  | nil => simp [Memory.insert]
  | cons e rest ih =>
    obtain ⟨k, w⟩ := e
    obtain ⟨hk, hrest⟩ := List.pairwise_cons.mp hm
    by_cases hlt : a < k
    · simp only [Memory.insert, hlt, if_true]
      refine List.pairwise_cons.mpr ⟨?_, hm⟩
      intro c hc
      rcases List.mem_cons.mp hc with rfl | hc
      · exact hlt
      · exact Nat.lt_trans hlt (hk c hc)
    · have hne : k ≠ a := ha (k, w) (by simp)
      simp only [Memory.insert, hlt, if_false]
      refine List.pairwise_cons.mpr ⟨?_, ih hrest fun c hc => ha c (List.mem_cons_of_mem _ hc)⟩
      intro c hc
      rcases Memory.mem_insert.mp hc with rfl | hc
      · show k < a
        omega
      · exact hk c hc

/-- A write to an address below 65536 keeps the canonical form. -/
theorem Memory.write_wf {m : Memory} {a : Nat} {v : Word} (hm : m.wf = true) (ha : a < 65536) :
    (m.write a v).wf = true := by
  obtain ⟨hp, hall⟩ := (Memory.wf_iff m).mp hm
  have hpe : (m.erase a).Pairwise fun c e => c.1 < e.1 := hp.filter _
  have halle : ∀ c ∈ m.erase a, c.1 < 65536 ∧ c.2 ≠ 0#16 := fun c hc => hall c (List.mem_filter.mp hc).1
  refine (Memory.wf_iff _).mpr ?_
  by_cases hv : v = 0#16
  · simpa [Memory.write, hv] using And.intro hpe halle
  · simp only [Memory.write, hv, if_false]
    refine ⟨Memory.insert_pairwise hpe Memory.erase_ne, fun c hc => ?_⟩
    rcases Memory.mem_insert.mp hc with rfl | hc
    · exact ⟨ha, hv⟩
    · exact halle c hc

/-- A cell set in a state keeps the canonical form of its memory. -/
theorem State.setCell_wf {s : State} (a v : Word) (h : s.mem.wf = true) : (s.setCell a v).mem.wf = true :=
  Memory.write_wf h a.isLt

/-- A cell of a state after one cell is set. -/
theorem State.cell_setCell (s : State) (a b v : Word) :
    (s.setCell a v).cell b = if b = a then v else s.cell b := by
  simp only [State.cell, State.setCell, Memory.read_write]
  by_cases h : b = a
  · simp [h]
  · have : b.toNat ≠ a.toNat := fun e => h (BitVec.eq_of_toNat_eq e)
    simp [h, this]

@[simp] theorem State.cell_setCell_same (s : State) (a v : Word) : (s.setCell a v).cell a = v := by
  simp [State.cell_setCell]

end Sys2Proof.Machine
end

