-- ==== Sys2Proof/Laws/State.lean ====
section
/-! SUPPORT. The state's updates, field by field: one lemma per field per update, each true by `rfl`. -/

namespace Sys2Proof.Machine

/-! ### setReg -/

@[simp] theorem State.setReg_regs (s : State) (i : RegIdx) (v : Word) : (s.setReg i v).regs = s.regs.set i.toNat v i.isLt := rfl
@[simp] theorem State.setReg_pc (s : State) (i : RegIdx) (v : Word) : (s.setReg i v).pc = s.pc := rfl
@[simp] theorem State.setReg_cond (s : State) (i : RegIdx) (v : Word) : (s.setReg i v).cond = s.cond := rfl
@[simp] theorem State.setReg_count (s : State) (i : RegIdx) (v : Word) : (s.setReg i v).count = s.count := rfl
@[simp] theorem State.setReg_run (s : State) (i : RegIdx) (v : Word) : (s.setReg i v).run = s.run := rfl
@[simp] theorem State.setReg_mem (s : State) (i : RegIdx) (v : Word) : (s.setReg i v).mem = s.mem := rfl
@[simp] theorem State.setReg_trace (s : State) (i : RegIdx) (v : Word) : (s.setReg i v).trace = s.trace := rfl
@[simp] theorem State.setReg_inputWait (s : State) (i : RegIdx) (v : Word) : (s.setReg i v).inputWait = s.inputWait := rfl
@[simp] theorem State.setReg_pollAnswers (s : State) (i : RegIdx) (v : Word) : (s.setReg i v).pollAnswers = s.pollAnswers := rfl
@[simp] theorem State.setReg_pollCount (s : State) (i : RegIdx) (v : Word) : (s.setReg i v).pollCount = s.pollCount := rfl
@[simp] theorem State.setReg_readAnswers (s : State) (i : RegIdx) (v : Word) : (s.setReg i v).readAnswers = s.readAnswers := rfl
@[simp] theorem State.setReg_params (s : State) (i : RegIdx) (v : Word) : (s.setReg i v).params = s.params := rfl

/-! ### setPc -/

@[simp] theorem State.setPc_regs (s : State) (v : Word) : (s.setPc v).regs = s.regs := rfl
@[simp] theorem State.setPc_pc (s : State) (v : Word) : (s.setPc v).pc = v := rfl
@[simp] theorem State.setPc_cond (s : State) (v : Word) : (s.setPc v).cond = s.cond := rfl
@[simp] theorem State.setPc_count (s : State) (v : Word) : (s.setPc v).count = s.count := rfl
@[simp] theorem State.setPc_run (s : State) (v : Word) : (s.setPc v).run = s.run := rfl
@[simp] theorem State.setPc_mem (s : State) (v : Word) : (s.setPc v).mem = s.mem := rfl
@[simp] theorem State.setPc_trace (s : State) (v : Word) : (s.setPc v).trace = s.trace := rfl
@[simp] theorem State.setPc_inputWait (s : State) (v : Word) : (s.setPc v).inputWait = s.inputWait := rfl
@[simp] theorem State.setPc_pollAnswers (s : State) (v : Word) : (s.setPc v).pollAnswers = s.pollAnswers := rfl
@[simp] theorem State.setPc_pollCount (s : State) (v : Word) : (s.setPc v).pollCount = s.pollCount := rfl
@[simp] theorem State.setPc_readAnswers (s : State) (v : Word) : (s.setPc v).readAnswers = s.readAnswers := rfl
@[simp] theorem State.setPc_params (s : State) (v : Word) : (s.setPc v).params = s.params := rfl

/-! ### setCc -/

@[simp] theorem State.setCc_regs (s : State) (v : Word) : (s.setCc v).regs = s.regs := rfl
@[simp] theorem State.setCc_pc (s : State) (v : Word) : (s.setCc v).pc = s.pc := rfl
@[simp] theorem State.setCc_cond (s : State) (v : Word) : (s.setCc v).cond = flagsOf v := rfl
@[simp] theorem State.setCc_count (s : State) (v : Word) : (s.setCc v).count = s.count := rfl
@[simp] theorem State.setCc_run (s : State) (v : Word) : (s.setCc v).run = s.run := rfl
@[simp] theorem State.setCc_mem (s : State) (v : Word) : (s.setCc v).mem = s.mem := rfl
@[simp] theorem State.setCc_trace (s : State) (v : Word) : (s.setCc v).trace = s.trace := rfl
@[simp] theorem State.setCc_inputWait (s : State) (v : Word) : (s.setCc v).inputWait = s.inputWait := rfl
@[simp] theorem State.setCc_pollAnswers (s : State) (v : Word) : (s.setCc v).pollAnswers = s.pollAnswers := rfl
@[simp] theorem State.setCc_pollCount (s : State) (v : Word) : (s.setCc v).pollCount = s.pollCount := rfl
@[simp] theorem State.setCc_readAnswers (s : State) (v : Word) : (s.setCc v).readAnswers = s.readAnswers := rfl
@[simp] theorem State.setCc_params (s : State) (v : Word) : (s.setCc v).params = s.params := rfl

/-! ### setRun -/

@[simp] theorem State.setRun_regs (s : State) (r : Run) : (s.setRun r).regs = s.regs := rfl
@[simp] theorem State.setRun_pc (s : State) (r : Run) : (s.setRun r).pc = s.pc := rfl
@[simp] theorem State.setRun_cond (s : State) (r : Run) : (s.setRun r).cond = s.cond := rfl
@[simp] theorem State.setRun_count (s : State) (r : Run) : (s.setRun r).count = s.count := rfl
@[simp] theorem State.setRun_run (s : State) (r : Run) : (s.setRun r).run = r := rfl
@[simp] theorem State.setRun_mem (s : State) (r : Run) : (s.setRun r).mem = s.mem := rfl
@[simp] theorem State.setRun_trace (s : State) (r : Run) : (s.setRun r).trace = s.trace := rfl
@[simp] theorem State.setRun_inputWait (s : State) (r : Run) : (s.setRun r).inputWait = s.inputWait := rfl
@[simp] theorem State.setRun_pollAnswers (s : State) (r : Run) : (s.setRun r).pollAnswers = s.pollAnswers := rfl
@[simp] theorem State.setRun_pollCount (s : State) (r : Run) : (s.setRun r).pollCount = s.pollCount := rfl
@[simp] theorem State.setRun_readAnswers (s : State) (r : Run) : (s.setRun r).readAnswers = s.readAnswers := rfl
@[simp] theorem State.setRun_params (s : State) (r : Run) : (s.setRun r).params = s.params := rfl

/-! ### emit -/

@[simp] theorem State.emit_regs (s : State) (v : Word) : (s.emit v).regs = s.regs := rfl
@[simp] theorem State.emit_pc (s : State) (v : Word) : (s.emit v).pc = s.pc := rfl
@[simp] theorem State.emit_cond (s : State) (v : Word) : (s.emit v).cond = s.cond := rfl
@[simp] theorem State.emit_count (s : State) (v : Word) : (s.emit v).count = s.count := rfl
@[simp] theorem State.emit_run (s : State) (v : Word) : (s.emit v).run = s.run := rfl
@[simp] theorem State.emit_mem (s : State) (v : Word) : (s.emit v).mem = s.mem := rfl
@[simp] theorem State.emit_trace (s : State) (v : Word) : (s.emit v).trace = s.trace ++ [v] := rfl
@[simp] theorem State.emit_inputWait (s : State) (v : Word) : (s.emit v).inputWait = s.inputWait := rfl
@[simp] theorem State.emit_pollAnswers (s : State) (v : Word) : (s.emit v).pollAnswers = s.pollAnswers := rfl
@[simp] theorem State.emit_pollCount (s : State) (v : Word) : (s.emit v).pollCount = s.pollCount := rfl
@[simp] theorem State.emit_readAnswers (s : State) (v : Word) : (s.emit v).readAnswers = s.readAnswers := rfl
@[simp] theorem State.emit_params (s : State) (v : Word) : (s.emit v).params = s.params := rfl

/-! ### setWait -/

@[simp] theorem State.setWait_regs (s : State) (w : Bool) : (s.setWait w).regs = s.regs := rfl
@[simp] theorem State.setWait_pc (s : State) (w : Bool) : (s.setWait w).pc = s.pc := rfl
@[simp] theorem State.setWait_cond (s : State) (w : Bool) : (s.setWait w).cond = s.cond := rfl
@[simp] theorem State.setWait_count (s : State) (w : Bool) : (s.setWait w).count = s.count := rfl
@[simp] theorem State.setWait_run (s : State) (w : Bool) : (s.setWait w).run = s.run := rfl
@[simp] theorem State.setWait_mem (s : State) (w : Bool) : (s.setWait w).mem = s.mem := rfl
@[simp] theorem State.setWait_trace (s : State) (w : Bool) : (s.setWait w).trace = s.trace := rfl
@[simp] theorem State.setWait_inputWait (s : State) (w : Bool) : (s.setWait w).inputWait = w := rfl
@[simp] theorem State.setWait_pollAnswers (s : State) (w : Bool) : (s.setWait w).pollAnswers = s.pollAnswers := rfl
@[simp] theorem State.setWait_pollCount (s : State) (w : Bool) : (s.setWait w).pollCount = s.pollCount := rfl
@[simp] theorem State.setWait_readAnswers (s : State) (w : Bool) : (s.setWait w).readAnswers = s.readAnswers := rfl
@[simp] theorem State.setWait_params (s : State) (w : Bool) : (s.setWait w).params = s.params := rfl

/-! ### setCell -/

@[simp] theorem State.setCell_regs (s : State) (a v : Word) : (s.setCell a v).regs = s.regs := rfl
@[simp] theorem State.setCell_pc (s : State) (a v : Word) : (s.setCell a v).pc = s.pc := rfl
@[simp] theorem State.setCell_cond (s : State) (a v : Word) : (s.setCell a v).cond = s.cond := rfl
@[simp] theorem State.setCell_count (s : State) (a v : Word) : (s.setCell a v).count = s.count := rfl
@[simp] theorem State.setCell_run (s : State) (a v : Word) : (s.setCell a v).run = s.run := rfl
@[simp] theorem State.setCell_mem (s : State) (a v : Word) : (s.setCell a v).mem = s.mem.write a.toNat v := rfl
@[simp] theorem State.setCell_trace (s : State) (a v : Word) : (s.setCell a v).trace = s.trace := rfl
@[simp] theorem State.setCell_inputWait (s : State) (a v : Word) : (s.setCell a v).inputWait = s.inputWait := rfl
@[simp] theorem State.setCell_pollAnswers (s : State) (a v : Word) : (s.setCell a v).pollAnswers = s.pollAnswers := rfl
@[simp] theorem State.setCell_pollCount (s : State) (a v : Word) : (s.setCell a v).pollCount = s.pollCount := rfl
@[simp] theorem State.setCell_readAnswers (s : State) (a v : Word) : (s.setCell a v).readAnswers = s.readAnswers := rfl
@[simp] theorem State.setCell_params (s : State) (a v : Word) : (s.setCell a v).params = s.params := rfl

/-! ### dropPoll -/

@[simp] theorem State.dropPoll_regs (s : State) : s.dropPoll.regs = s.regs := rfl
@[simp] theorem State.dropPoll_pc (s : State) : s.dropPoll.pc = s.pc := rfl
@[simp] theorem State.dropPoll_cond (s : State) : s.dropPoll.cond = s.cond := rfl
@[simp] theorem State.dropPoll_count (s : State) : s.dropPoll.count = s.count := rfl
@[simp] theorem State.dropPoll_run (s : State) : s.dropPoll.run = s.run := rfl
@[simp] theorem State.dropPoll_mem (s : State) : s.dropPoll.mem = s.mem := rfl
@[simp] theorem State.dropPoll_trace (s : State) : s.dropPoll.trace = s.trace := rfl
@[simp] theorem State.dropPoll_inputWait (s : State) : s.dropPoll.inputWait = s.inputWait := rfl
@[simp] theorem State.dropPoll_pollAnswers (s : State) : s.dropPoll.pollAnswers = s.pollAnswers.tail := rfl
@[simp] theorem State.dropPoll_pollCount (s : State) : s.dropPoll.pollCount = s.pollCount + 1 := rfl
@[simp] theorem State.dropPoll_readAnswers (s : State) : s.dropPoll.readAnswers = s.readAnswers := rfl
@[simp] theorem State.dropPoll_params (s : State) : s.dropPoll.params = s.params := rfl

/-! ### dropRead -/

@[simp] theorem State.dropRead_regs (s : State) : s.dropRead.regs = s.regs := rfl
@[simp] theorem State.dropRead_pc (s : State) : s.dropRead.pc = s.pc := rfl
@[simp] theorem State.dropRead_cond (s : State) : s.dropRead.cond = s.cond := rfl
@[simp] theorem State.dropRead_count (s : State) : s.dropRead.count = s.count := rfl
@[simp] theorem State.dropRead_run (s : State) : s.dropRead.run = s.run := rfl
@[simp] theorem State.dropRead_mem (s : State) : s.dropRead.mem = s.mem := rfl
@[simp] theorem State.dropRead_trace (s : State) : s.dropRead.trace = s.trace := rfl
@[simp] theorem State.dropRead_inputWait (s : State) : s.dropRead.inputWait = s.inputWait := rfl
@[simp] theorem State.dropRead_pollAnswers (s : State) : s.dropRead.pollAnswers = s.pollAnswers := rfl
@[simp] theorem State.dropRead_pollCount (s : State) : s.dropRead.pollCount = s.pollCount := rfl
@[simp] theorem State.dropRead_readAnswers (s : State) : s.dropRead.readAnswers = s.readAnswers.tail := rfl
@[simp] theorem State.dropRead_params (s : State) : s.dropRead.params = s.params := rfl

/-! ### Registers and cells of an updated state -/

/-- A register reads what was last written to it, and a write to another register leaves it alone (R22). -/
theorem State.reg_setReg (s : State) (i j : RegIdx) (v : Word) :
    (s.setReg i v).reg j = if j = i then v else s.reg j := by
  simp only [State.reg, State.setReg, Vector.getElem_set]
  by_cases h : j = i
  · simp [h]
  · have : i.toNat ≠ j.toNat := fun e => h (BitVec.eq_of_toNat_eq e.symm)
    simp [h, this]

@[simp] theorem State.reg_setReg_same (s : State) (i : RegIdx) (v : Word) : (s.setReg i v).reg i = v := by
  simp [State.reg_setReg]

@[simp] theorem State.reg_setPc (s : State) (v : Word) (i : RegIdx) : (s.setPc v).reg i = s.reg i := rfl
@[simp] theorem State.reg_setCc (s : State) (v : Word) (i : RegIdx) : (s.setCc v).reg i = s.reg i := rfl
@[simp] theorem State.reg_setRun (s : State) (r : Run) (i : RegIdx) : (s.setRun r).reg i = s.reg i := rfl
@[simp] theorem State.reg_emit (s : State) (v : Word) (i : RegIdx) : (s.emit v).reg i = s.reg i := rfl
@[simp] theorem State.reg_setWait (s : State) (w : Bool) (i : RegIdx) : (s.setWait w).reg i = s.reg i := rfl
@[simp] theorem State.reg_setCell (s : State) (a v : Word) (i : RegIdx) : (s.setCell a v).reg i = s.reg i := rfl
@[simp] theorem State.reg_dropPoll (s : State) (i : RegIdx) : s.dropPoll.reg i = s.reg i := rfl
@[simp] theorem State.reg_dropRead (s : State) (i : RegIdx) : s.dropRead.reg i = s.reg i := rfl
@[simp] theorem State.cell_setReg (s : State) (i : RegIdx) (v : Word) (c : Word) : (s.setReg i v).cell c = s.cell c := rfl
@[simp] theorem State.cell_setPc (s : State) (v : Word) (c : Word) : (s.setPc v).cell c = s.cell c := rfl
@[simp] theorem State.cell_setCc (s : State) (v : Word) (c : Word) : (s.setCc v).cell c = s.cell c := rfl
@[simp] theorem State.cell_setRun (s : State) (r : Run) (c : Word) : (s.setRun r).cell c = s.cell c := rfl
@[simp] theorem State.cell_emit (s : State) (v : Word) (c : Word) : (s.emit v).cell c = s.cell c := rfl
@[simp] theorem State.cell_setWait (s : State) (w : Bool) (c : Word) : (s.setWait w).cell c = s.cell c := rfl
@[simp] theorem State.cell_dropPoll (s : State) (c : Word) : s.dropPoll.cell c = s.cell c := rfl
@[simp] theorem State.cell_dropRead (s : State) (c : Word) : s.dropRead.cell c = s.cell c := rfl

end Sys2Proof.Machine
end

