-- ==== Sys2Proof/Laws/Ops.lean ====
section
/-! SUPPORT. What each shared operation can do, said once: the poll and MemRead, the fetch, a written-back result, a
load, a string walk, GETC. -/

namespace Sys2Proof.Machine

/-! ### The poll and MemRead (R63) -/

/-- What the poll does to each cell. -/
theorem State.cell_pollKeyboard (s : State) (c : Word) :
    s.pollKeyboard.cell c =
      match s.pollAnswer with
      | some b =>
        if c = s.params.kbdrAddr then zext8 b else if c = s.params.kbsrAddr then 0x8000#16 else s.cell c
      | none => if c = s.params.kbsrAddr then 0#16 else s.cell c := by
  unfold State.pollKeyboard
  cases s.pollAnswer <;> simp [State.cell_setCell]

/-- The poll changes memory and consumes an answer, and nothing else. -/
theorem State.pollKeyboard_eq (s : State) :
    s.pollKeyboard =
      { s with mem := s.pollKeyboard.mem, pollAnswers := s.pollAnswers.tail, pollCount := s.pollCount + 1 } := by
  unfold State.pollKeyboard
  cases s.pollAnswer <;> rfl

/-- A read changes at most memory and the answers to polls. -/
theorem State.afterRead_eq (s : State) (a : Word) :
    s.afterRead a = { s with
      mem := (s.afterRead a).mem, pollAnswers := (s.afterRead a).pollAnswers,
      pollCount := (s.afterRead a).pollCount } := by
  unfold State.afterRead
  split
  · rw [State.pollKeyboard_eq]
  · rfl

@[simp] theorem State.afterRead_regs (s : State) (a : Word) : (s.afterRead a).regs = s.regs := by
  rw [State.afterRead_eq]
@[simp] theorem State.afterRead_pc (s : State) (a : Word) : (s.afterRead a).pc = s.pc := by
  rw [State.afterRead_eq]
@[simp] theorem State.afterRead_cond (s : State) (a : Word) : (s.afterRead a).cond = s.cond := by
  rw [State.afterRead_eq]
@[simp] theorem State.afterRead_count (s : State) (a : Word) : (s.afterRead a).count = s.count := by
  rw [State.afterRead_eq]
@[simp] theorem State.afterRead_run (s : State) (a : Word) : (s.afterRead a).run = s.run := by
  rw [State.afterRead_eq]
@[simp] theorem State.afterRead_trace (s : State) (a : Word) : (s.afterRead a).trace = s.trace := by
  rw [State.afterRead_eq]
@[simp] theorem State.afterRead_inputWait (s : State) (a : Word) : (s.afterRead a).inputWait = s.inputWait := by
  rw [State.afterRead_eq]
@[simp] theorem State.afterRead_readAnswers (s : State) (a : Word) :
    (s.afterRead a).readAnswers = s.readAnswers := by
  rw [State.afterRead_eq]
@[simp] theorem State.afterRead_params (s : State) (a : Word) : (s.afterRead a).params = s.params := by
  rw [State.afterRead_eq]
@[simp] theorem State.reg_afterRead (s : State) (a : Word) (i : RegIdx) : (s.afterRead a).reg i = s.reg i := by
  simp [State.reg]

/-- A read away from KBDR has no side effect (R72). -/
theorem State.afterRead_plain {s : State} {a : Word} (h : a ≠ s.params.kbdrAddr) : s.afterRead a = s := by
  simp [State.afterRead, h]

/-- A read leaves every cell but the two keyboard cells as it is. -/
theorem State.cell_afterRead {s : State} {a c : Word} (h : c ≠ s.params.kbsrAddr)
    (h' : c ≠ s.params.kbdrAddr) : (s.afterRead a).cell c = s.cell c := by
  unfold State.afterRead
  split
  · rw [State.cell_pollKeyboard]
    cases s.pollAnswer <;> simp [h, h']
  · rfl

/-- A read keeps the canonical form of memory. -/
theorem State.afterRead_wf {s : State} (a : Word) (h : s.mem.wf = true) : (s.afterRead a).mem.wf = true := by
  unfold State.afterRead State.pollKeyboard
  split
  · cases s.pollAnswer
    · exact State.setCell_wf (s := s.dropPoll) _ _ h
    · exact State.setCell_wf _ _ (State.setCell_wf (s := s.dropPoll) _ _ h)
  · exact h

/-- A read and an output commute: the read does not look at the trace. -/
theorem State.afterRead_emit (s : State) (a v : Word) : (s.emit v).afterRead a = (s.afterRead a).emit v := by
  unfold State.afterRead State.pollKeyboard
  by_cases h : a = s.params.kbdrAddr
  · rw [if_pos h, if_pos (show a = (s.emit v).params.kbdrAddr from h), show (s.emit v).pollAnswer = s.pollAnswer from rfl]
    cases s.pollAnswer <;> rfl
  · rw [if_neg h, if_neg (show ¬a = (s.emit v).params.kbdrAddr from h)]

@[simp] theorem memRead_snd (a : Word) (s : State) : (memRead a s).2 = s.afterRead a := rfl

theorem memRead_fst (a : Word) (s : State) : (memRead a s).1 = (s.afterRead a).cell a := rfl

/-- Away from KBDR a read gives the cell and leaves the state (R63). -/
theorem memRead_plain {a : Word} {s : State} (h : a ≠ s.params.kbdrAddr) : memRead a s = (s.cell a, s) := by
  simp [memRead, State.afterRead_plain h]

/-! ### The fetch (R120) -/

@[simp] theorem fetch_fst (s : State) : (fetch s).1 = (memRead s.pc s).1 := rfl

@[simp] theorem fetch_snd (s : State) : (fetch s).2 = (s.afterRead s.pc).setPc (s.pc + 1#16) := rfl

/-! ### A result written back, and a load -/

theorem writeBack_eq (d : RegIdx) (v : Word) (s : State) :
    writeBack d v s = { s with regs := (s.setReg d v).regs, cond := flagsOf v } := rfl

theorem reg_writeBack (d r : RegIdx) (v : Word) (s : State) :
    (writeBack d v s).reg r = if r = d then v else s.reg r :=
  State.reg_setReg s d r v

@[simp] theorem cell_writeBack (d : RegIdx) (v c : Word) (s : State) : (writeBack d v s).cell c = s.cell c := rfl

theorem loadWord_eq (d : RegIdx) (ea : Word) (s : State) :
    loadWord d ea s = writeBack d (memRead ea s).1 (s.afterRead ea) := rfl

/-! ### Flags (R28) -/

/-- The flags of a value, in the order of R28. -/
theorem flagsOf_cases (v : Word) : flagsOf v = 0b001#3 ∨ flagsOf v = 0b010#3 ∨ flagsOf v = 0b100#3 := by
  unfold flagsOf
  split
  · exact .inr (.inl rfl)
  · split
    · exact .inr (.inr rfl)
    · exact .inl rfl

/-! ### String walks (R234 to R236) -/

/-- What a walk or a read leaves alone: all but memory, the trace and the answers to polls; in memory, all but the
keyboard cells; the trace only grows. -/
def WalkEffect (s t : State) : Prop :=
  t = { s with mem := t.mem, trace := t.trace, pollAnswers := t.pollAnswers, pollCount := t.pollCount } ∧
    s.trace <+: t.trace ∧
    (s.mem.wf = true → t.mem.wf = true) ∧
    ∀ c, c ≠ s.params.kbsrAddr → c ≠ s.params.kbdrAddr → t.cell c = s.cell c

theorem WalkEffect.refl (s : State) : WalkEffect s s :=
  ⟨rfl, List.prefix_refl _, id, fun _ _ _ => rfl⟩

theorem WalkEffect.read (s : State) (a : Word) : WalkEffect s (s.afterRead a) := by
  refine ⟨?_, by simp, State.afterRead_wf a, fun c h h' => State.cell_afterRead h h'⟩
  conv => lhs; rw [State.afterRead_eq]
  simp

theorem WalkEffect.emit (s : State) (v : Word) : WalkEffect s (s.emit v) :=
  ⟨rfl, List.prefix_append _ _, id, fun _ _ _ => rfl⟩

theorem WalkEffect.trans {s t u : State} (h : WalkEffect s t) (h' : WalkEffect t u) : WalkEffect s u := by
  obtain ⟨e, pre, w, c⟩ := h
  obtain ⟨e', pre', w', c'⟩ := h'
  have hp : t.params = s.params := by rw [e]
  refine ⟨?_, pre.trans pre', fun x => w' (w x), fun a ha hb => ?_⟩
  · rw [e', e]
  · rw [c' a (hp ▸ ha) (hp ▸ hb), c a ha hb]

/-- A walk of PUTS that ends has the effect of a walk (R234, R238). -/
theorem walkWords_effect {n : Nat} {a : Word} {s t : State} (h : walkWords n a s = some t) : WalkEffect s t := by
  induction n generalizing a s with
  | zero => exact nomatch h
  | succ n ih =>
    simp only [walkWords, memRead_snd] at h
    split at h
    · exact Option.some.inj h ▸ .read s a
    · exact (WalkEffect.read s a).trans ((WalkEffect.emit _ _).trans (ih h))

/-- A walk of PUTSP that ends has the effect of a walk (R236, R238). -/
theorem walkBytes_effect {n : Nat} {a : Word} {s t : State} (h : walkBytes n a s = some t) : WalkEffect s t := by
  induction n generalizing a s with
  | zero => exact nomatch h
  | succ n ih =>
    simp only [walkBytes, memRead_snd] at h
    split at h
    · exact Option.some.inj h ▸ .read s a
    · split at h
      · exact Option.some.inj h ▸ (WalkEffect.read s a).trans (.emit _ _)
      · exact (WalkEffect.read s a).trans ((WalkEffect.emit _ _).trans ((WalkEffect.emit _ _).trans (ih h)))

/-- PUTS answers the state of a walk, or Hang (R234, R235). -/
theorem execPuts_cases (s : State) :
    (∃ t, execPuts s = .next t ∧ WalkEffect s t) ∨ execPuts s = .fault .hang := by
  unfold execPuts walkOutcome
  cases h : walkWords walkLimit (s.reg argReg) s with
  | some t => exact .inl ⟨t, rfl, walkWords_effect h⟩
  | none => exact .inr rfl

/-- PUTSP answers the state of a walk, or Hang (R236, R235). -/
theorem execPutsp_cases (s : State) :
    (∃ t, execPutsp s = .next t ∧ WalkEffect s t) ∨ execPutsp s = .fault .hang := by
  unfold execPutsp walkOutcome
  cases h : walkBytes walkLimit (s.reg argReg) s with
  | some t => exact .inl ⟨t, rfl, walkBytes_effect h⟩
  | none => exact .inr rfl

/-! ### GETC (R232, R282, R284) -/

/-- The three ends of a GETC: a byte, an abort, or a wait. -/
theorem execGetc_cases (s : State) :
    (∃ b rest, s.readAnswers = .byte b :: rest ∧
      execGetc s = .next ((s.dropRead.setWait false).setReg argReg (zext8 b))) ∨
    (∃ rest, s.readAnswers = .abort :: rest ∧
      execGetc s = .next ((s.dropRead.setWait false).setRun .aborted)) ∨
    (s.readAnswers = [] ∧ execGetc s = .next (s.setWait true)) := by
  unfold execGetc
  cases s.readAnswers with
  | nil => exact .inr (.inr ⟨rfl, rfl⟩)
  | cons a rest =>
    cases a with
    | byte b => exact .inl ⟨b, rest, rfl, rfl⟩
    | abort => exact .inr (.inl ⟨rest, rfl, rfl⟩)

/-! ### TRAP (R231, R237) -/

/-- The multiplexer selects one of the five handlers by its vector, or faults for a vector that is none of them. -/
theorem execTrap_cases (v : Byte) (s : State) :
    (v = s.params.tvGetc ∧ execTrap v s = execGetc s) ∨ (v = s.params.tvOut ∧ execTrap v s = execOut s) ∨
    (v = s.params.tvPuts ∧ execTrap v s = execPuts s) ∨ (v = s.params.tvPutsp ∧ execTrap v s = execPutsp s) ∨
    (v = s.params.tvHalt ∧ execTrap v s = execHalt s) ∨
    (v ∉ [s.params.tvGetc, s.params.tvOut, s.params.tvPuts, s.params.tvPutsp, s.params.tvHalt] ∧
      execTrap v s = .next (raiseFault (.unknownTrapVector v s.instrAddr) s)) := by
  unfold execTrap
  by_cases h1 : v = s.params.tvGetc
  · exact .inl ⟨h1, by rw [if_pos h1]⟩
  by_cases h2 : v = s.params.tvOut
  · exact .inr (.inl ⟨h2, by rw [if_neg h1, if_pos h2]⟩)
  by_cases h3 : v = s.params.tvPuts
  · exact .inr (.inr (.inl ⟨h3, by rw [if_neg h1, if_neg h2, if_pos h3]⟩))
  by_cases h4 : v = s.params.tvPutsp
  · exact .inr (.inr (.inr (.inl ⟨h4, by rw [if_neg h1, if_neg h2, if_neg h3, if_pos h4]⟩)))
  by_cases h5 : v = s.params.tvHalt
  · exact .inr (.inr (.inr (.inr (.inl ⟨h5, by rw [if_neg h1, if_neg h2, if_neg h3, if_neg h4, if_pos h5]⟩))))
  · refine .inr (.inr (.inr (.inr (.inr ⟨by simp [h1, h2, h3, h4, h5], ?_⟩))))
    rw [if_neg h1, if_neg h2, if_neg h3, if_neg h4, if_neg h5]

end Sys2Proof.Machine
end

