-- ==== Sys2Proof/Laws/Exec.lean ====
section
/-! SUPPORT. What an instruction can do, said once: the effect that `exec` has whenever it gives a next state, and the
form of what the decoder gives. -/

namespace Sys2Proof.Machine

/-- How the run state can change (R31), by the instruction. -/
def RunEffect (i : Instr) (s t : State) : Prop :=
  t.run = s.run ∨ (t.run = .halted ∧ (i = .halt ∨ i = .trap s.params.tvHalt)) ∨
    (t.run = .aborted ∧ t.inputWait = false ∧ (i = .getc ∨ i = .trap s.params.tvGetc) ∧
      s.readAnswers.head? = some .abort) ∨
    ∃ v, i = .trap v ∧ v ∉ s.params.handledVectors ∧ t.run = .faulted (.unknownTrapVector v s.instrAddr) ∧
      t.inputWait = s.inputWait

/-- The instructions whose effect is that of a GETC, or that output: by name or by their vector. -/
def outputs (p : Params) (i : Instr) : Prop :=
  i = .out ∨ i = .puts ∨ i = .putsp ∨ i = .trap p.tvOut ∨ i = .trap p.tvPuts ∨ i = .trap p.tvPutsp

/-- The effect of an instruction, whatever it is: the parameters and COUNT stand, memory keeps its canonical form,
the trace grows, and each other change names the instructions that can make it. -/
structure ExecEffect (i : Instr) (s t : State) : Prop where
  params : t.params = s.params
  count : t.count = s.count
  mem_wf : s.mem.wf = true → t.mem.wf = true
  trace : s.trace <+: t.trace
  trace_eq : t.trace = s.trace ∨ outputs s.params i
  run : RunEffect i s t
  wait : t.inputWait = true → s.inputWait = true ∨ (t.run = s.run)

theorem ExecEffect.of_eq {i : Instr} {s t : State} (regs : Vector Word 8) (pc : Word) (cond : Cond)
    (h : t = { s with regs := regs, pc := pc, cond := cond }) : ExecEffect i s t := by
  subst h
  exact ⟨rfl, rfl, id, List.prefix_refl _, .inl rfl, .inl rfl, .inl⟩

/-- A walk, or any reads, with registers and flags changed besides. -/
theorem ExecEffect.of_walk {i : Instr} {s u t : State} (hw : WalkEffect s u) (ho : u.trace = s.trace ∨ outputs s.params i)
    (h : t = { u with regs := t.regs, cond := t.cond }) : ExecEffect i s t := by
  obtain ⟨e, pre, w, -⟩ := hw
  rw [h]
  refine ⟨by rw [e], by rw [e], w, pre, ho, .inl (by rw [e]), fun x => .inl ?_⟩
  rw [e] at x
  exact x

/-- A load after reads. -/
theorem ExecEffect.of_load {i : Instr} {s u : State} (d : RegIdx) (ea : Word) (hw : WalkEffect s u)
    (ht : u.trace = s.trace) : ExecEffect i s (loadWord d ea u) :=
  .of_walk (hw.trans (.read u ea)) (.inl ((State.afterRead_trace u ea).trans ht)) rfl

theorem ExecEffect.of_getc {i : Instr} {s t : State} (hi : i = .getc ∨ i = .trap s.params.tvGetc)
    (h : execGetc s = .next t) : ExecEffect i s t := by
  rcases execGetc_cases s with ⟨b, rest, -, e⟩ | ⟨rest, hr, e⟩ | ⟨-, e⟩ <;> rw [e] at h <;> injection h with h <;>
    subst h
  · exact ⟨rfl, rfl, id, List.prefix_refl _, .inl rfl, .inl rfl, nofun⟩
  · exact ⟨rfl, rfl, id, List.prefix_refl _, .inl rfl, .inr (.inr (.inl ⟨rfl, rfl, hi, by simp [hr]⟩)), nofun⟩
  · exact ⟨rfl, rfl, id, List.prefix_refl _, .inl rfl, .inl rfl, fun _ => .inr rfl⟩

theorem ExecEffect.of_puts {i : Instr} {s t : State} (hi : outputs s.params i) (h : execPuts s = .next t) :
    ExecEffect i s t := by
  rcases execPuts_cases s with ⟨u, e, w⟩ | e <;> rw [e] at h
  · injection h with h
    subst h
    exact .of_walk w (.inr hi) rfl
  · exact nomatch h

theorem ExecEffect.of_putsp {i : Instr} {s t : State} (hi : outputs s.params i) (h : execPutsp s = .next t) :
    ExecEffect i s t := by
  rcases execPutsp_cases s with ⟨u, e, w⟩ | e <;> rw [e] at h
  · injection h with h
    subst h
    exact .of_walk w (.inr hi) rfl
  · exact nomatch h

theorem ExecEffect.of_out {i : Instr} {s t : State} (hi : outputs s.params i) (h : execOut s = .next t) :
    ExecEffect i s t := by
  injection h with h
  subst h
  exact ⟨rfl, rfl, id, List.prefix_append _ _, .inr hi, .inl rfl, .inl⟩

theorem ExecEffect.of_halt {i : Instr} {s t : State} (hi : i = .halt ∨ i = .trap s.params.tvHalt)
    (h : execHalt s = .next t) : ExecEffect i s t := by
  injection h with h
  subst h
  exact ⟨rfl, rfl, id, List.prefix_refl _, .inl rfl, .inr (.inl ⟨rfl, hi⟩), .inl⟩

/-- Every instruction that gives a next state has its effect. -/
theorem exec_effect {i : Instr} {s t : State} (h : exec i s = .next t) : ExecEffect i s t := by
  cases i <;> simp only [exec] at h
  case addReg | addImm | andReg | andImm | not | lea | jsr | jsrr | jmp | ret | rti | reserved =>
    injection h with h
    subst h
    exact .of_eq _ _ _ rfl
  case br =>
    unfold execBr at h
    split at h <;> injection h with h <;> subst h <;> exact .of_eq _ _ _ rfl
  case ld | ldr =>
    injection h with h
    subst h
    exact .of_load _ _ (.refl s) rfl
  case ldi =>
    injection h with h
    subst h
    exact .of_load _ _ (.read s _) (State.afterRead_trace s _)
  case st | str =>
    injection h with h
    subst h
    exact ⟨rfl, rfl, State.setCell_wf _ _, List.prefix_refl _, .inl rfl, .inl rfl, .inl⟩
  case sti =>
    injection h with h
    subst h
    refine ⟨?_, ?_, fun w => State.setCell_wf _ _ (State.afterRead_wf _ w), ?_, .inl ?_, .inl ?_, fun w => .inl ?_⟩
    all_goals simp_all [memWrite]
  case getc => exact .of_getc (.inl rfl) h
  case out => exact .of_out (.inl rfl) h
  case puts => exact .of_puts (.inr (.inl rfl)) h
  case putsp => exact .of_putsp (.inr (.inr (.inl rfl))) h
  case halt => exact .of_halt (.inl rfl) h
  case trap v =>
    rcases execTrap_cases v s with ⟨e, x⟩ | ⟨e, x⟩ | ⟨e, x⟩ | ⟨e, x⟩ | ⟨e, x⟩ | ⟨e, x⟩ <;> rw [x] at h
    · exact .of_getc (.inr (e ▸ rfl)) h
    · exact .of_out (by simp [outputs, e]) h
    · exact .of_puts (by simp [outputs, e]) h
    · exact .of_putsp (by simp [outputs, e]) h
    · exact .of_halt (.inr (e ▸ rfl)) h
    · injection h with h
      subst h
      exact ⟨rfl, rfl, id, List.prefix_refl _, .inl rfl, .inr (.inr (.inr ⟨v, rfl, e, rfl, rfl⟩)), .inl⟩

/-- Whatever the decoder gives is well formed: RET is not spelt JMP, and no handled vector is spelt TRAP. -/
theorem decode_wf {p : Params} {w : Word} {i : Instr} (h : decode p w = .ok i) : i.wf p = true := by
  unfold decode at h
  split at h
  · exact nomatch h
  · injection h with h
    subst h
    unfold dispatch
    split <;> try rfl
    · split <;> rfl
    · split <;> rfl
    · split <;> rfl
    · split
      · rfl
      · simpa [Instr.wf]
    · unfold decodeTrap
      iterate 5 (split; · rfl)
      simp_all [Instr.wf, Params.handledVectors]

end Sys2Proof.Machine
end

