-- ==== Sys2Proof/Laws/PerInstr.lean ====
section
/-! SUPPORT. Statements about every instruction as syntax, one lemma per constructor. The family EncodedOpcode: the
word of an instruction carries the instruction's opcode (R107, R111). -/

namespace Sys2Proof.Laws.EncodedOpcode

/-- The opcode field of the encoded word is the instruction's opcode. -/
def Statement (i : Instr) : Prop :=
  ∀ p : Params, (fieldsOf (encode p i)).opcode = opcodeOf i

theorem br (nzp : Cond) (off : BitVec 9) : Statement (.br nzp off) := fun _ => regOff_opcode _ _ _
theorem addReg (d s t : RegIdx) : Statement (.addReg d s t) := fun _ => threeReg_opcode _ _ _ _ _
theorem addImm (d s : RegIdx) (imm : BitVec 5) : Statement (.addImm d s imm) := fun _ => regImm_opcode _ _ _ _ _
theorem ld (d : RegIdx) (off : BitVec 9) : Statement (.ld d off) := fun _ => regOff_opcode _ _ _
theorem st (s : RegIdx) (off : BitVec 9) : Statement (.st s off) := fun _ => regOff_opcode _ _ _
theorem jsr (off : BitVec 11) : Statement (.jsr off) := fun _ => longOff_high _ _ 12 4 (by decide)
theorem jsrr (b : RegIdx) : Statement (.jsrr b) := fun _ => baseOnly_high _ _ _ 12 4 (by decide)
theorem andReg (d s t : RegIdx) : Statement (.andReg d s t) := fun _ => threeReg_opcode _ _ _ _ _
theorem andImm (d s : RegIdx) (imm : BitVec 5) : Statement (.andImm d s imm) := fun _ => regImm_opcode _ _ _ _ _
theorem ldr (d b : RegIdx) (off : BitVec 6) : Statement (.ldr d b off) := fun _ => regReg_opcode _ _ _ _
theorem str (s b : RegIdx) (off : BitVec 6) : Statement (.str s b off) := fun _ => regReg_opcode _ _ _ _
theorem rti : Statement .rti := fun _ => (by decide : (fieldsOf 0x8000#16).opcode = 8#4)
theorem not (d s : RegIdx) : Statement (.not d s) := fun _ => regReg_opcode _ _ _ _
theorem ldi (d : RegIdx) (off : BitVec 9) : Statement (.ldi d off) := fun _ => regOff_opcode _ _ _
theorem sti (s : RegIdx) (off : BitVec 9) : Statement (.sti s off) := fun _ => regOff_opcode _ _ _
theorem jmp (b : RegIdx) : Statement (.jmp b) := fun _ => baseOnly_high _ _ _ 12 4 (by decide)
theorem ret : Statement .ret := fun _ => (by decide : (fieldsOf 0xC1C0#16).opcode = 12#4)
theorem reserved : Statement .reserved := fun _ => (by decide : (fieldsOf 0xD000#16).opcode = 13#4)
theorem lea (d : RegIdx) (off : BitVec 9) : Statement (.lea d off) := fun _ => regOff_opcode _ _ _
theorem trap (vect : Byte) : Statement (.trap vect) := fun _ => vector_high _ _ 12 4 (by decide)
theorem getc : Statement .getc := fun _ => vector_high _ _ 12 4 (by decide)
theorem out : Statement .out := fun _ => vector_high _ _ 12 4 (by decide)
theorem puts : Statement .puts := fun _ => vector_high _ _ 12 4 (by decide)
theorem putsp : Statement .putsp := fun _ => vector_high _ _ 12 4 (by decide)
theorem halt : Statement .halt := fun _ => vector_high _ _ 12 4 (by decide)

end Sys2Proof.Laws.EncodedOpcode
end

