-- ==== Sys2Proof/Laws/Step.lean ====
section
/-! SUPPORT. What a step can be, said once: the fetched instruction, a GETC taken up again, or a fault of the strict
decoder. -/

namespace Sys2Proof.Machine

/-- Every case in which a step gives a next state. -/
theorem step_cases {s t : State} (h : step s = .next t) :
    s.run = .running ∧
    ((s.inputWait = true ∧ execGetc s = .next t) ∨
      (s.inputWait = false ∧ ∃ i, decode s.params (fetch s).1 = .ok i ∧ exec i (fetch s).2 = .next t) ∨
      (s.inputWait = false ∧ decode s.params (fetch s).1 = .error .nonCanonicalEncoding ∧
        t = raiseFault (.nonCanonicalEncoding (fetch s).1 (fetch s).2.instrAddr) (fetch s).2)) := by
  unfold step at h
  split at h
  · rename_i hr
    refine ⟨hr, ?_⟩
    unfold cycle at h
    by_cases hw : s.inputWait = true
    · rw [if_pos hw] at h
      exact .inl ⟨hw, h⟩
    · rw [if_neg hw] at h
      replace hw : s.inputWait = false := by simpa using hw
      simp only [runInstr] at h
      split at h
      · rename_i i hi
        exact .inr (.inl ⟨hw, i, hi, h⟩)
      · rename_i hi
        injection h with h
        exact .inr (.inr ⟨hw, hi, h.symm⟩)
  all_goals exact nomatch h

/-- A Running block with no GETC waiting runs what it fetches (R120). -/
theorem step_running {s : State} (hr : s.run = .running) (hw : s.inputWait = false) : step s = runInstr s := by
  simp [step, cycle, hr, hw]

end Sys2Proof.Machine
end

