-- ==== Sys2Proof/Machine/Lexer.lean ====
section
/-! DEFINITION. The source format of the assembler (R130): how the text of a line is cut into its parts. Where a
character the spec does not settle could be read two ways, log 14 says which way the model takes. -/

namespace Sys2Proof.Machine

/-- The escape sequences of `.STRINGZ` (R132): each spelling with the character it stands for. The spec does not give
the spellings (N8), so every function takes them as an argument. -/
abbrev Escapes := List (List Char × Char)

/-- White space inside a line. -/
def isBlank (c : Char) : Bool :=
  c == ' ' || c == '\t' || c == '\r'

/-- The text without the blanks at its start. -/
def trimStart : List Char → List Char
  | [] => []
  | c :: rest => if isBlank c then trimStart rest else c :: rest

/-- The text without the blanks at its two ends. -/
def trim (cs : List Char) : List Char :=
  (trimStart (trimStart cs).reverse).reverse

/-- The text up to a `;` that stands outside quotes (R130). The flag says whether a quote is open. -/
def dropComment : Bool → List Char → List Char
  | _, [] => []
  | quoted, c :: rest =>
    if c = ';' ∧ quoted = false then []
    else c :: dropComment (if c = '"' then !quoted else quoted) rest

/-- The text cut at every occurrence of a character. -/
def cutAt (sep : Char) : List Char → List (List Char)
  | [] => [[]]
  | c :: rest =>
    if c = sep then [] :: cutAt sep rest
    else
      match cutAt sep rest with
      | [] => [[c]]
      | first :: others => (c :: first) :: others

/-- An operand (R133): a literal if it is one, an error if its `#` promises one, else a name. -/
def lexToken (cs : List Char) : Except AsmErrorKind Token :=
  match literalValue cs, cs with
  | some v, _ => .ok (.lit v)
  | none, '#' :: _ => .error .malformedLiteral
  | none, [] => .error .badOperands
  | none, c :: rest => .ok (.name (String.ofList (c :: rest)))

/-- Operands, in order; the first error stands. -/
def lexTokens : List (List Char) → Except AsmErrorKind (List Token)
  | [] => .ok []
  | cs :: rest => do
    let t ← lexToken (trim cs)
    let ts ← lexTokens rest
    .ok (t :: ts)

/-- The operands after a mnemonic: none, or separated by commas with optional blanks around them (R130). -/
def lexOperands (cs : List Char) : Except AsmErrorKind (List Token) :=
  if trim cs = [] then .ok [] else lexTokens (cutAt ',' cs)

/-- The character and the rest of the text after the first escape spelling that begins it, if one does. -/
def takeEscape : Escapes → List Char → Option (Char × List Char)
  | [], _ => none
  | (spelling, c) :: more, cs =>
    if spelling ≠ [] ∧ spelling.isPrefixOf cs = true then some (c, cs.drop spelling.length) else takeEscape more cs

/-- The text inside quotes with its escapes replaced (R132), and nothing after the closing quote. The bound is the
length of what is left. -/
def quotedText (esc : Escapes) : Nat → List Char → Except AsmErrorKind (List Char)
  | 0, _ => .error .malformedText
  | _ + 1, [] => .error .malformedText
  | n + 1, c :: rest =>
    match takeEscape esc (c :: rest) with
    | some (e, left) => do .ok (e :: (← quotedText esc n left))
    | none =>
      if c = '"' then if rest = [] then .ok [] else .error .malformedText
      else do .ok (c :: (← quotedText esc n rest))

/-- The operand of `.STRINGZ`. -/
def lexText (esc : Escapes) : List Char → Except AsmErrorKind (List Char)
  | '"' :: rest => quotedText esc (rest.length + 1) rest
  | _ => .error .malformedText

/-- The operand of `.ORIG`: a hexadecimal literal (R130, R131). -/
def lexOrigin (cs : List Char) : Except AsmErrorKind Word :=
  match cs with
  | 'x' :: ds | 'X' :: ds =>
    match numberValue 16 ds with
    | some n => .ok (BitVec.ofNat 16 n)
    | none => .error .malformedLiteral
  | _ => .error .malformedLiteral

/-- The operand of `.FILL`: a numeric literal (R133). -/
def lexFill (cs : List Char) : Except AsmErrorKind Int :=
  match literalValue cs with
  | some v => .ok v
  | none => .error .malformedLiteral

/-- A line (R130): its comment dropped, it is blank, a directive, or a name with its operands. DESIGN CHOICE: the spec
gives no grammar of an identifier (R132); any bare word that is no mnemonic and does not begin with `.` declares a
label, `#5` or `HALT,` too (log 14; unsafe for source texts with such a line). -/
def lexLine (esc : Escapes) (cs : List Char) : Except AsmErrorKind Line :=
  let body := trim (dropComment false cs)
  let word := body.takeWhile (fun c => !isBlank c)
  let rest := trim (body.drop word.length)
  match word with
  | [] => .ok .blank
  | '.' :: name =>
    if name = ['O', 'R', 'I', 'G'] then do .ok (.orig (← lexOrigin rest))
    else if name = ['E', 'N', 'D'] then if rest = [] then .ok .stop else .error .badOperands
    else if name = ['F', 'I', 'L', 'L'] then do .ok (.fill (← lexFill rest))
    else if name = ['S', 'T', 'R', 'I', 'N', 'G', 'Z'] then do .ok (.stringz (← lexText esc rest))
    else .error .unknownDirective
  | c :: name => do .ok (.named (String.ofList (c :: name)) (← lexOperands rest))

/-- The lines from a number on, up to `.END`: what stands after it is not read (R132). -/
def lexLines (esc : Escapes) : Nat → List (List Char) → Except AsmError (List Line)
  | _, [] => .ok []
  | n, cs :: rest =>
    match lexLine esc cs with
    | .error kind => .error { kind := kind, line := n }
    | .ok .stop => .ok [.stop]
    | .ok line => do .ok (line :: (← lexLines esc (n + 1) rest))

/-- The assembler on a source text (R130 to R142): one statement a line. -/
def assembleText (p : Params) (esc : Escapes) (source : List Char) : Except AsmError (List Word) := do
  assemble p (← lexLines esc 0 (cutAt '\n' source))

end Sys2Proof.Machine
end

