-- ==== Sys2Proof/Tests/Slice0.lean ====
section
/-! SUPPORT. The model's own tests. Expected results are those of spec/95_test_vectors.md, whose vector each test
names; then, for each statement with hypotheses, a state and operands that meet them (test_witness_...). -/

namespace Sys2Proof.Tests

open Machine Claims

/-! ### Helpers -/

/-- The next state, if there is one. -/
def next? : Host.Outcome State Fault Refusal → Option State
  | .next s => some s
  | .fault _ => none
  | .refused _ => none

/-- What `f` sees after the state runs one word as its next instruction. -/
def run {α : Type} (s : State) (w : Nat) (f : State → α) : Option α :=
  (next? (step (s.withFetchWord 16 w))).map f

/-- A state at x3000 with COND = Z, as the vectors of part 2 start. -/
def s0 : State := { State.reset with cond := 0b010 }

/-- The parameters with STRICT_FIXED_BITS true. -/
def strict : Params := { recommended with strictFixedBits := true }

theorem next_of {o : Host.Outcome State Fault Refusal} {f : State → Bool} (h : (next? o).any f = true) :
    ∃ t, o = .next t ∧ f t = true := by
  cases o with
  | next t => exact ⟨t, rfl, by simpa [next?] using h⟩
  | fault _ => exact nomatch h
  | refused _ => exact nomatch h

theorem fetches_of {s : State} {i : Instr} (h : (decode s.params (fetch s).1).toOption = some i) :
    Fetches s i := by
  unfold Fetches
  cases hd : decode s.params (fetch s).1 with
  | ok j =>
    rw [hd] at h
    exact congrArg _ (Option.some.inj h)
  | error e =>
    rw [hd] at h
    exact nomatch h

/-! ### Well-formedness: an ill-formed term for each check -/

theorem test_wf_refuses_jmp_r7 : (Instr.jmp 7).wf recommended = false := by decide
theorem test_wf_refuses_handled_vectors :
    [0x20, 0x21, 0x22, 0x24, 0x25].map (fun v => (Instr.trap v).wf recommended) =
      [false, false, false, false, false] := by decide
theorem test_wf_accepts : (Instr.jmp 6).wf recommended = true ∧ (Instr.trap 0x23).wf recommended = true ∧
    Instr.ret.wf recommended = true := by decide
theorem test_params_wf : recommended.wf = true ∧ strict.wf = true ∧
    ({ recommended with kbsrAddr := 0xFE02 } : Params).wf = false ∧
    ({ recommended with tvOut := 0x25 } : Params).wf = false := by decide
theorem test_memory_wf : Memory.wf [(3, 1), (9, 2)] = true ∧ Memory.wf [(9, 2), (3, 1)] = false ∧
    Memory.wf [(3, 0)] = false ∧ Memory.wf [(65536, 1)] = false := by decide

/-! ### Decoding: each row's word, written out bit by bit after R104 -/

theorem test_decode_operate :
    decodeTableWord 16 0b0001000001000010 = some (.addReg 0 1 2) ∧
    decodeTableWord 16 0b0001001001111111 = some (.addImm 1 1 0b11111) ∧
    decodeTableWord 16 0b0101011100000101 = some (.andReg 3 4 5) ∧
    decodeTableWord 16 0b0101010010100000 = some (.andImm 2 2 0) ∧
    decodeTableWord 16 0b1001100101111111 = some (.not 4 5) := by decide
theorem test_decode_control :
    decodeTableWord 16 0b0000110000000101 = some (.br 0b110 5) ∧
    decodeTableWord 16 0b0100100000001111 = some (.jsr 15) ∧
    decodeTableWord 16 0b0100000010000000 = some (.jsrr 2) ∧
    decodeTableWord 16 0b1100000011000000 = some (.jmp 3) ∧
    decodeTableWord 16 0b1100000111000000 = some .ret := by decide
theorem test_decode_load_store :
    decodeTableWord 16 0b0010010000000010 = some (.ld 2 2) ∧
    decodeTableWord 16 0b1010011000000001 = some (.ldi 3 1) ∧
    decodeTableWord 16 0b1110000000000101 = some (.lea 0 5) ∧
    decodeTableWord 16 0b0011001111111110 = some (.st 1 0b111111110) ∧
    decodeTableWord 16 0b1011100000000011 = some (.sti 4 3) ∧
    decodeTableWord 16 0b0110101110111111 = some (.ldr 5 6 0b111111) ∧
    decodeTableWord 16 0b0111000110000010 = some (.str 0 6 2) := by decide
theorem test_decode_trap_reserved :
    decodeTableWord 16 0b1111000000100011 = some (.trap 0x23) ∧
    decodeTableWord 16 0b1111000000100000 = some .getc ∧
    decodeTableWord 16 0b1111000000100001 = some .out ∧
    decodeTableWord 16 0b1111000000100010 = some .puts ∧
    decodeTableWord 16 0b1111000000100100 = some .putsp ∧
    decodeTableWord 16 0b1111000000100101 = some .halt ∧
    decodeTableWord 16 0b1000101010111100 = some .rti ∧
    decodeTableWord 16 0b1101111111111111 = some .reserved := by decide
/-- V-OP8, V-OP14, V-JMP nc and V-HALT nc: fixed bits are ignored by default. -/
theorem test_decode_ignores_fixed_bits :
    decodeTableWord 16 0x1018 = some (.addReg 0 0 0) ∧ decodeTableWord 16 0x9000 = some (.not 0 0) ∧
    decodeTableWord 16 0xCEFF = some (.jmp 3) ∧ decodeTableWord 16 0xFF25 = some .halt := by decide
/-- V-OP8s, V-OP14s, V-JMP nc s, V-HALT nc s and V-RES13s: the strict setting, decoder side. -/
theorem test_decode_strict :
    (decode strict 0x1018).toOption = none ∧ (decode strict 0x9000).toOption = none ∧
    (decode strict 0xCEFF).toOption = none ∧ (decode strict 0xFF25).toOption = none ∧
    (decode strict 0xDFFF).toOption = some .reserved ∧ (decode strict 0x1042).toOption = some (.addReg 0 1 2) := by
  decide
/-- T403: every call of the table: a negative value, 17 truncated to five bits, a skipped field read as 0. -/
theorem test_encode_fields :
    encodeCall (.mnemonic "ADD") [(.r0, 1), (.r1, 1), (.immSel, 1), (.imm5, -1)] = some 0x127F ∧
    encodeCall (.mnemonic "ADD") [(.r0, 1), (.r1, 1), (.immSel, 1), (.imm5, 17)] = some 0x1271 ∧
    encodeCall (.mnemonic "ADD") [(.r0, 0), (.r1, 1), (.r2, 2)] = some 0x1042 ∧
    encodeCall (.mnemonic "JSR") [(.longSel, 1), (.off11, 15)] = some 0x480F ∧
    encodeCall (.mnemonic "TRAP") [(.trapvect8, 0x25)] = some 0xF025 ∧
    encodeCall (.mnemonic "NOT") [(.r0, 4), (.r1, 5), (.ones6, 0b111111)] = some 0x997F := by decide
/-- R110: both kinds of key, an alias, a field outside the layout, and fixed words of the formats. -/
theorem test_encode_keys :
    encodeCall (.opcode 12) [(.r1, 7)] = some 0xC1C0 ∧ encodeCall (.mnemonic "RET") [(.r1, 7)] = some 0xC1C0 ∧
    encodeCall (.opcode 12) [(.r1, 7), (.r0, 7)] = some 0xC1C0 ∧ encodeCall (.mnemonic "XOR") [] = none ∧
    encode recommended (.not 4 5) = 0x997F ∧ encode recommended .ret = 0xC1C0 ∧
    encode recommended .halt = 0xF025 := by decide
/-- T410: the fields of x6BBF, whatever the opcode uses. -/
theorem test_fields : (fieldsOf 0x6BBF).r0 = 5 ∧ (fieldsOf 0x6BBF).r1 = 6 ∧ (fieldsOf 0x6BBF).off9 = 0x1BF ∧
    (fieldsOf 0x6BBF).off11 = 0x3BF ∧ (fieldsOf 0x6BBF).longSel = true ∧ (fieldsOf 0x6BBF).trapvect8 = 0xBF := by
  decide
/-- T411: word k << 12 has the single bit k of the dispatch vector set. -/
theorem test_dispatch_vector : dispatchVector 0xD000 = 0x2000 ∧ dispatchVector 0x0FFF = 1 := by decide
/-- T400. -/
theorem test_sext : sext 0b10000#5 = 0xFFF0 ∧ sext 0b01111#5 = 15 ∧ sext 0x100#9 = 0xFF00 ∧ sext 0x20#6 = 0xFFE0 ∧
    sext 0x400#11 = 0xFC00 := by decide

/-! ### Operate (T412) -/

/-- V-OP2. -/
theorem test_add_overflow : run ((s0.setReg 1 0x7FFF).setReg 2 1) 0x1042 (fun t => (t.reg 0, t.pc, t.cond)) =
    some (0x8000, 0x3001, 0b100) := by decide
/-- V-OP7: a source that is also the destination, and the carry dropped. -/
theorem test_add_same_register : run (s0.setReg 0 0x8000) 0x1000 (fun t => (t.reg 0, t.cond)) =
    some (0, 0b010) := by decide
/-- V-OP4. -/
theorem test_add_immediate : run s0 0x127F (fun t => (t.reg 1, t.cond)) = some (0xFFFF, 0b100) := by decide
/-- V-OP9. -/
theorem test_and : run ((s0.setReg 4 0xF0F0).setReg 5 0x0FF0) 0x5705 (fun t => (t.reg 3, t.cond)) =
    some (0x00F0, 0b001) := by decide
/-- V-OP11. -/
theorem test_and_immediate : run (s0.setReg 0 0x8001) 0x503F (fun t => (t.reg 0, t.cond)) =
    some (0x8001, 0b100) := by decide
/-- V-OP13. -/
theorem test_not : run (s0.setReg 5 0xFFFF) 0x997F (fun t => (t.reg 4, t.cond)) = some (0, 0b010) := by decide
/-- V-OP8s. -/
theorem test_strict_step : run { s0.setReg 0 3 with params := strict } 0x1018 (fun t => (t.run, t.pc, t.reg 0)) =
    some (.faulted (.nonCanonicalEncoding 0x1018 0x3000), 0x3001, 3) := by decide

/-! ### Control (T413) -/

/-- V-BR wrap. -/
theorem test_br_wraps : run { s0 with pc := 0xFFFF, cond := 0b001 } 0x0E05 (fun t => t.pc) = some 5 := by decide
/-- V-BR11 and V-BR4: no bit in common, and no bit set at all. -/
theorem test_br_not_taken : run { s0 with cond := 0b110 } 0x0204 (fun t => t.pc) = some 0x3001 ∧
    run { s0 with cond := 0b000 } 0x0E04 (fun t => t.pc) = some 0x3001 := by decide
/-- V-JMP. -/
theorem test_jmp : run (s0.setReg 3 0x4000) 0xC0C0 (fun t => (t.pc, t.cond)) = some (0x4000, 0b010) := by decide
/-- V-RET. -/
theorem test_ret : run (s0.setReg 7 0x3050) 0xC1C0 (fun t => t.pc) = some 0x3050 := by decide
/-- V-JSR min and V-JSR top. -/
theorem test_jsr : run s0 0x4C00 (fun t => (t.reg 7, t.pc)) = some (0x3001, 0x2C01) ∧
    run { s0 with pc := 0xFFFF } 0x4802 (fun t => (t.reg 7, t.pc)) = some (0, 2) := by decide
/-- V-JSRR. -/
theorem test_jsrr : run (s0.setReg 2 0x5000) 0x4080 (fun t => (t.reg 7, t.pc)) = some (0x3001, 0x5000) := by decide
/-- V-JSRR7 and V-JSRR7 alt. -/
theorem test_jsrr_r7 : run (s0.setReg 7 0x4444) 0x41C0 (fun t => (t.reg 7, t.pc)) = some (0x3001, 0x3001) ∧
    run { s0.setReg 7 0x4444 with params := { recommended with jsrrLinkFirst := false } } 0x41C0
      (fun t => (t.reg 7, t.pc)) = some (0x3001, 0x4444) := by decide
/-- V-RES8b and V-RES13. -/
theorem test_reserved : run s0 0x8FFF id = some { s0.withFetchWord 16 0x8FFF with pc := 0x3001 } ∧
    run s0 0xDFFF id = some { s0.withFetchWord 16 0xDFFF with pc := 0x3001 } := by decide

/-! ### Loads and stores (T414) -/

/-- V-LD wrap. -/
theorem test_ld : run { s0.setCell 4 0x42 with pc := 0xFFFE } 0x2005 (fun t => (t.reg 0, t.pc, t.cond)) =
    some (0x42, 0xFFFF, 0b001) := by decide
/-- V-LD self. -/
theorem test_ld_self : run s0 0x21FF (fun t => t.reg 0) = some 0x21FF := by decide
/-- V-LDI. -/
theorem test_ldi : run ((s0.setCell 0x3002 0x4000).setCell 0x4000 7) 0xA601 (fun t => (t.reg 3, t.cond)) =
    some (7, 0b001) := by decide
/-- V-LEA N. -/
theorem test_lea : run { s0 with pc := 0x8000 } 0xE1FF (fun t => (t.reg 0, t.cond)) = some (0x8000, 0b100) := by
  decide
/-- V-ST. -/
theorem test_st : run (s0.setReg 1 0xBEEF) 0x33FE (fun t => (t.cell 0x2FFF, t.cond)) = some (0xBEEF, 0b010) := by
  decide
/-- V-STI. -/
theorem test_sti : run ((s0.setCell 0x3004 0x5000).setReg 4 0x1234) 0xB803 (fun t => (t.cell 0x5000, t.cell 0x3004)) =
    some (0x1234, 0x5000) := by decide
/-- V-LDR. -/
theorem test_ldr : run ((s0.setReg 6 0x4001).setCell 0x4000 0xFF) 0x6BBF (fun t => (t.reg 5, t.cond)) =
    some (0xFF, 0b001) := by decide
/-- R206's corner case: the base is read before the destination is written. -/
theorem test_ldr_same_register : run ((s0.setReg 1 0x4000).setCell 0x4000 0x4444) 0x6240 (fun t => t.reg 1) =
    some 0x4444 := by decide
/-- V-STR self. -/
theorem test_str : run ((s0.setReg 0 0x1234).setReg 6 0x3000) 0x7180 (fun t => t.cell 0x3000) = some 0x1234 := by
  decide

/-! ### The arbiter and the keyboard cells (T415) -/

/-- A state whose next polls and blocking reads have the answers. -/
def withConsole (s : State) (polls : List (Option Byte)) (reads : List ReadAnswer) : State :=
  { s with pollAnswers := polls, readAnswers := reads }

/-- V-KB1. -/
theorem test_poll_none : run (withConsole (((s0.setCell 0x3002 0xFE02).setCell 0xFE00 0x8000).setCell 0xFE02 0x41)
    [none] []) 0xA001 (fun t => (t.cell 0xFE00, t.reg 0, t.cond)) = some (0, 0x41, 0b001) := by decide
/-- V-KB4. -/
theorem test_poll_byte : run (withConsole (s0.setReg 1 0xFE02) [some 0xE9] []) 0x6040
    (fun t => (t.cell 0xFE00, t.cell 0xFE02, t.reg 0, t.cond)) = some (0x8000, 0xE9, 0xE9, 0b001) := by decide
/-- V-KB3 and V-KB5: a read of KBSR and a write of KBDR do not poll. -/
theorem test_no_poll : run (withConsole (s0.setCell 0x3002 0xFE00) [some 0x62] []) 0xA001
      (fun t => (t.reg 0, t.pollAnswers)) = some (0, [some 0x62]) ∧
    run (withConsole ((s0.setReg 0 0x1234).setReg 1 0xFE02) [some 0x55] []) 0x7040
      (fun t => (t.cell 0xFE02, t.cell 0xFE00, t.pollAnswers)) = some (0x1234, 0, [some 0x55]) := by decide
/-- V-KB6: the fetch polls. -/
theorem test_fetch_polls : (next? (step (withConsole { s0 with pc := 0xFE02 } [some 0x1A] []))).map
    (fun t => (t.cell 0xFE00, t.cell 0xFE02, t.pc)) = some (0x8000, 0x1A, 0xFE03) := by decide
/-- The word that `withFetchWord` places is fetched at the keyboard-data cell too. -/
theorem test_fetch_word_at_kbdr : run { s0 with pc := 0xFE02 } 0xE005 (fun t => t.reg 0) = some 0xFE08 := by decide

/-! ### TRAP (T416) -/

/-- V-GETC hi. -/
theorem test_getc : run (withConsole s0 [] [.byte 0xFF]) 0xF020 (fun t => (t.reg 0, t.cond, t.readAnswers)) =
    some (0xFF, 0b010, []) := by decide
/-- V-GETC wait: the GETC waits, and the abort that follows ends the run with R0 unchanged. -/
theorem test_getc_waits_then_aborts :
    ((next? (step (s0.withFetchWord 16 0xF020))).bind (hostAnswer .abort)).bind (fun s => next? (step s)) =
      some { s0.withFetchWord 16 0xF020 with pc := 0x3001, run := .aborted } := by decide
/-- V-OUT wide. -/
theorem test_out : run (s0.setReg 0 0x1234) 0xF021 (fun t => (t.trace, t.reg 0)) = some ([0x1234], 0x1234) := by
  decide
/-- V-PUTS wrap. -/
theorem test_puts : run (((s0.setReg 0 0xFFFF).setCell 0xFFFF 0x41).setCell 0 0x42) 0xF022 (fun t => t.trace) =
    some [0x41, 0x42] := by decide
/-- V-KB7: a walk across KBDR. -/
theorem test_puts_across_kbdr : run (withConsole ((s0.setReg 0 0xFE01).setCell 0xFE01 0x41) [some 0x42] []) 0xF022
    (fun t => (t.trace, t.cell 0xFE00, t.cell 0xFE02)) = some ([0x41, 0x42], 0x8000, 0x42) := by decide
/-- V-PUTSP. -/
theorem test_putsp : run (((s0.setReg 0 0x4000).setCell 0x4000 0x6948).setCell 0x4001 0x21) 0xF024
    (fun t => t.trace) = some [0x48, 0x69, 0x21] := by decide
/-- V-PUTSP lo0. -/
theorem test_putsp_low_zero : run ((s0.setReg 0 0x4000).setCell 0x4000 0x4100) 0xF024 (fun t => t.trace) =
    some [] := by decide
/-- V-HALT, and no step after it. -/
theorem test_halt : run { s0 with pc := 0x3005 } 0xF025 (fun t => (t.run, t.pc, (next? (step t)).isNone)) =
    some (.halted, 0x3006, true) := by decide
/-- V-TRAP23 and V-TRAPFF. -/
theorem test_unknown_trap :
    run s0 0xF023 id = some { s0.withFetchWord 16 0xF023 with
      pc := 0x3001, run := .faulted (.unknownTrapVector 0x23 0x3000) } ∧
    run s0 0xF0FF (fun t => t.run) = some (.faulted (.unknownTrapVector 0xFF 0x3000)) := by decide
/-- V-TOP: the run goes on past the top of memory. -/
theorem test_top_of_memory : run { s0 with pc := 0xFFFF } 0 (fun t => (t.pc, t.run)) = some (0, .running) := by
  decide

/-! ### Image load (T418) and the assembler (T421) -/

/-- V-IMG3, V-IMG5 and V-IMG6. -/
theorem test_load : ((load [0xFF, 0xFF, 0x12, 0x34, 0x56, 0x78] s0).toOption.map fun t => (t.cell 0xFFFF, t.cell 0)) =
      some (0x1234, 0x5678) ∧
    (load [0x30] s0).toOption = none ∧ (load [0x30, 0, 0xF0] s0).toOption = none := by decide
/-- V-IMG4: execution starts at BOOT_PC, not at the origin. -/
theorem test_launch : ((launch recommended resetRegs 0 0 [] [] [0x40, 0, 0xF0, 0x25]).toOption.map
    fun t => (t.pc, t.cell 0x4000)) = some (0x3000, 0xF025) := by decide

/-- The source text of program P2 (T421), line by line. -/
def sourceP2 : List Line :=
  [.orig 0x3000, .named "LEA" [.name "R0", .name "MSG"], .named "JSR" [.name "PRINT"], .named "HALT" [],
    .named "PRINT" [], .named "PUTS" [], .named "RET" [], .named "MSG" [], .stringz ['H', 'i'], .stop]

/-- The image of P2. -/
theorem test_assemble : (assemble recommended sourceP2).toOption.map imageBytes =
    some [0x30, 0x00, 0xE0, 0x04, 0x48, 0x01, 0xF0, 0x25, 0xF0, 0x22, 0xC1, 0xC0, 0x00, 0x48, 0x00, 0x69, 0x00,
      0x00] := by decide
/-- Words of programs P1, P3 and P4 (T420, T422, T423), with a label of the table. -/
theorem test_assemble_words :
    let syms := registerNames ++ [("N", .address 0x3007), ("LOOP", .address 0x3002)]
    (asmInstr syms 0 0x3001 .ld [.name "R1", .name "N"]).toOption.map (encode recommended) = some 0x2205 ∧
    (asmInstr syms 0 0x3004 (.br 0b001) [.name "LOOP"]).toOption.map (encode recommended) = some 0x03FD ∧
    (asmInstr syms 0 0x3003 .add [.name "R1", .name "R1", .lit (-1)]).toOption.map (encode recommended) =
      some 0x127F ∧
    (asmInstr syms 0 0x3008 .str [.name "R1", .name "R6", .lit 1]).toOption.map (encode recommended) =
      some 0x7381 := by decide
theorem test_assembler_errors :
    (match assemble recommended [.named "HALT" []] with | .error e => e.kind | .ok _ => .badOperands) =
      .missingOrigin ∧
    (match assemble recommended [.orig 0, .blank, .named "LD" [.name "R0", .name "X"]] with
      | .error e => (e.kind, e.line) | .ok _ => (.badOperands, 0)) = (.undefinedLabel, 2) := by decide
theorem test_literals : literalValue ['#', '-', '1', '6'] = some (-16) ∧ literalValue ['x', 'F', 'e'] = some 0xFE ∧
    literalValue ['b', '1', '0'] = some 2 ∧ literalValue ['b', '2'] = none ∧ literalValue ['#'] = none := by decide
/-- The source text of program P1 (T420), with the blank lines and comments R130 and R131 allow, and a line after
`.END` that is not read. -/
def textP1 : List Char :=
  "; P1\n\n  .ORIG x3000 ; origin\nAND R0, R0, #0\nLD R1,N\nLOOP\nADD R0 , R0 ,R1\nADD R1, R1, #-1\nBRp LOOP\nST R0, RESULT\nHALT\nN\n.FILL #5\nRESULT\n.FILL #0\n.END\n.NONE".toList
/-- The image of P1 (T420). -/
theorem test_assemble_text : (assembleText recommended [] textP1).toOption.map imageBytes =
    some [0x30, 0x00, 0x50, 0x20, 0x22, 0x05, 0x10, 0x01, 0x12, 0x7F, 0x03, 0xFD, 0x30, 0x02, 0xF0, 0x25, 0x00, 0x05,
      0x00, 0x00] := by decide +kernel
/-- A text with a comment character and an escape in it, whose spelling is an argument (R132, N8). -/
theorem test_lex_text : (lexLine [(['\\', 't'], '\t')] ".STRINGZ \"a;\\tb\" ; c".toList).toOption =
    some (.stringz ['a', ';', '\t', 'b']) ∧ (lexLine [] ".FILL x1G".toList).toOption = none := by decide

/-- T402: LD and ST of P1 at their addresses, and STI and LEA at the ends of the reach (R134). -/
theorem test_assemble_offsets :
    let syms := registerNames ++ [("N", .address 0x3007), ("RESULT", .address 0x3008), ("FAR", .address 0x3100)]
    (asmInstr syms 0 0x3005 .st [.name "R0", .name "RESULT"]).toOption = some (.st 0 2) ∧
    (asmInstr syms 0 0x3000 .sti [.name "R4", .name "FAR"]).toOption = some (.sti 4 0xFF) ∧
    (asmInstr syms 0 0x3106 .lea [.name "R2", .name "N"]).toOption = some (.lea 2 0x100) := by decide

/-! ### Witnesses: for each statement with hypotheses, a case that meets them together -/

/-- The reset state about to run a word. -/
def about (w : Nat) : State := State.reset.withFetchWord 16 w

theorem test_witness_DecodeOfEncodeIsIdentity : recommended.wf = true ∧ (Instr.trap 0x23).wf recommended = true ∧
    strict.wf = true ∧ Instr.halt.wf strict = true := by decide
theorem test_witness_EncodeOfDecodeIsIdentity : canonical 0x997F = true ∧ ¬reservedOpcode 0x997F ∧
    ∃ i, decode strict 0x997F = .ok i :=
  ⟨by decide, by unfold reservedOpcode; decide, .not 4 5, by rfl⟩
theorem test_witness_EveryWordDecodesByDefault : recommended.strictFixedBits = false := by decide
/-- RET and JMP among the words whose ignored bits differ. -/
theorem test_witness_IgnoredBitsDoNotChangeDecoding : recommended.strictFixedBits = false ∧
    0xCEFF#16 &&& ~~~ignoredBits 0xCEFF = 0xC0C0#16 &&& ~~~ignoredBits 0xCEFF := by decide
theorem test_witness_StrictDecoderRejectsExactlyTheNonCanonical : strict.strictFixedBits = true := by decide
theorem test_witness_StepRunsTheDecodedInstruction :
    (about 0x1042).run = .running ∧ (about 0x1042).inputWait = false ∧ Fetches (about 0x1042) (.addReg 0 1 2) :=
  ⟨rfl, rfl, fetches_of (by decide)⟩

/-- The strict machine about to run a word that is not canonical. -/
def aboutStrict : State := { about 0x1018 with params := strict }

theorem test_witness_StrictStepFaultsOnNonCanonicalWords : aboutStrict.run = .running ∧
    aboutStrict.inputWait = false ∧ aboutStrict.params.strictFixedBits = true ∧
    canonical (fetch aboutStrict).1 = false := by decide

/-- A GETC that waits. -/
def waiting : State := { State.reset with inputWait := true }

theorem test_witness_WaitingGetcIsResumed : waiting.run = .running ∧ waiting.inputWait = true ∧
    waiting.readAnswers = [] := by decide
theorem test_witness_NonTransfersContinueAtTheNextAddress : (about 0x1042).inputWait = false ∧
    Fetches (about 0x1042) (.addReg 0 1 2) ∧ transfers (.addReg 0 1 2) = false ∧
    ∃ t, step (about 0x1042) = .next t ∧ decide (t.pc = 0x3001) = true :=
  ⟨rfl, fetches_of (by decide), rfl, next_of (by decide)⟩
theorem test_witness_RunningStepAnswersNextOrHangs : State.reset.run = .running := by decide
theorem test_witness_RunStateChangesOnlyAsTheSpecSays :
    (State.reset.setRun .halted).run ≠ .running ∧
    (∃ t, step (about 0xF025) = .next t ∧ decide (t.run = .halted) = true) ∧
    (∃ t, step (about 0xF023) = .next t ∧
      decide (t.run = .faulted (.unknownTrapVector 0x23 0x3000)) = true) ∧
    (∃ t, step aboutStrict = .next t ∧
      decide (t.run = .faulted (.nonCanonicalEncoding 0x1018 0x3000)) = true) ∧
    ∃ t, step (withConsole (about 0xF020) [] [.abort]) = .next t ∧ decide (t.run = .aborted) = true :=
  ⟨by decide, next_of (by decide), next_of (by decide), next_of (by decide), next_of (by decide)⟩
theorem test_witness_OnlyFlagWritersChangeCond :
    ∃ t, step (about 0x127F) = .next t ∧ decide (t.cond ≠ (about 0x127F).cond) = true :=
  next_of (by decide)
theorem test_witness_OneHotConditionIsKept : OneHot s0.cond ∧
    ∃ t, step (s0.withFetchWord 16 0x127F) = .next t ∧ decide (t.cond = 0b100) = true :=
  ⟨.inr (.inl rfl), next_of (by decide)⟩
theorem test_witness_OnlyStoresChangeOrdinaryCells : 0x2FFF#16 ≠ recommended.kbsrAddr ∧
    0x2FFF#16 ≠ recommended.kbdrAddr ∧
    ∃ t, step ((about 0x33FE).setReg 1 5) = .next t ∧
      decide (t.cell 0x2FFF ≠ ((about 0x33FE).setReg 1 5).cell 0x2FFF) = true :=
  ⟨by decide, by decide, next_of (by decide)⟩
theorem test_witness_TraceOnlyGrows :
    ∃ t, step (about 0xF021) = .next t ∧ decide (t.trace ≠ (about 0xF021).trace) = true :=
  next_of (by decide)
theorem test_witness_CountIsUnobservable : ∃ t, step State.reset = .next t ∧ decide (t.count = 0) = true :=
  next_of (by decide)
theorem test_witness_StepKeepsTheInvariant : Inv (about 0x33FE) ∧
    ∃ t, step (about 0x33FE) = .next t ∧ decide (t.pc = 0x3001) = true :=
  ⟨⟨by decide, by decide, by decide⟩, next_of (by decide)⟩
theorem test_witness_ResetMeetsTheInvariant : recommended.wf = true ∧ strict.wf = true := by decide
/-- A state of each clause: an ordinary address, KBDR with a byte, with none, and with a draw. -/
theorem test_witness_MemReadRoutesOnTheAddress : recommended.kbsrAddr ≠ recommended.kbdrAddr ∧
    (0xFE01#16 ≠ recommended.kbdrAddr ∧ 0xFE02#16 = recommended.kbdrAddr) ∧
    PollFinds (withConsole s0 [some 0x41] []) (some 0x41) ∧
    PollFinds (withConsole s0 [none] []) none ∧ PollFinds s0 (Config.pollDraw 0) :=
  ⟨by decide, by decide, .inl rfl, .inl rfl, .inr ⟨rfl, rfl⟩⟩
theorem test_witness_FetchSeesTheLastStore : 0xFE03#16 ≠ State.reset.params.kbdrAddr := by decide
theorem test_witness_CanonicalMemoriesThatReadAlikeAreEqual : Memory.wf [(3, 1)] = true ∧
    ∀ a, a < 65536 → Memory.read [(3, 1)] a = Memory.read [(3, 1)] a :=
  ⟨by decide, fun _ _ => rfl⟩
/-- Both clauses: a short image, an odd one, and one that wraps with no word written twice. -/
theorem test_witness_ImageLoadWritesItsWords : ([0x30] : List Byte).length < 2 ∧
    ([0x30, 0, 1] : List Byte).length % 2 = 1 ∧ 2 ≤ ([0xFF, 0xFF, 1, 2, 3, 4] : List Byte).length ∧
    ([0xFF, 0xFF, 1, 2, 3, 4] : List Byte).length % 2 = 0 := by decide
theorem test_witness_LaunchStartsAtTheBootAddress :
    ∃ s, launch recommended resetRegs 0 0 [] [] [0x40, 0, 0xF0, 0x25] = .ok s :=
  ⟨_, rfl⟩
/-- Both clauses at the ends of the reach: 255 and -256 words, 1023 and -1024 words. -/
theorem test_witness_AssembledOffsetsReachTheirLabels :
    (("L", Sym.address 0x3100) :: registerNames).lookup "L" = some (.address 0x3100) ∧
    (("L", Sym.address 0x3100) :: registerNames).lookup "R5" = some (.register 5) ∧
    (0x3100#16 - (0x3000#16 + 1#16)).toInt = 255 ∧ (0x2F01#16 - (0x3000#16 + 1#16)).toInt = -256 ∧
    (0x3400#16 - (0x3000#16 + 1#16)).toInt = 1023 ∧ (0x2C01#16 - (0x3000#16 + 1#16)).toInt = -1024 := by decide
/-- Both clauses: a mask with a bit in common with COND, and one without. -/
theorem test_witness_BranchResult :
    (∃ k, k < 3 ∧ (0b010#3).getLsbD k = true ∧ s0.cond.getLsbD k = true) ∧
    ∀ k, k < 3 → (0b101#3).getLsbD k = true → s0.cond.getLsbD k = false := by decide
theorem test_witness_MultiplexerSelectsTheHandlers : State.reset.params.wf = true := by decide
theorem test_witness_UnhandledTrapFaults : 0x23#8 ∉ State.reset.params.handledVectors := by decide
theorem test_witness_GetcReadsOneByte : (withConsole s0 [] [.byte 0x41]).readAnswers = [.byte 0x41] := by decide
theorem test_witness_AbortedGetcWritesNothing : (withConsole s0 [] [.abort]).readAnswers = [.abort] := by decide
theorem test_witness_UnansweredGetcWaits : s0.readAnswers = [] := by decide

/-- "Hi" stored at x4000, with R0 pointing at it. -/
def hi : State := ((s0.setReg 0 0x4000).setCell 0x4000 0x48).setCell 0x4001 0x69

theorem test_witness_PutsPrintsTheStoredString : ([0x48, 0x69] : List Word).length < 65536 ∧
    0#16 ∉ ([0x48, 0x69] : List Word) ∧
    (∀ k, k < 2 → hi.cell (hi.reg 0#3 + BitVec.ofNat 16 k) = ([0x48, 0x69] : List Word).getD k 0) ∧
    hi.cell (hi.reg 0#3 + BitVec.ofNat 16 2) = 0#16 ∧
    ∀ k, k ≤ 2 → hi.reg 0#3 + BitVec.ofNat 16 k ≠ hi.params.kbdrAddr := by decide

/-- A word string across KBDR: the second read polls. -/
def across : State := withConsole ((s0.setReg 0 0xFE01).setCell 0xFE01 0x41) [some 0x42] []

theorem test_witness_PutsOutputsItsReads : (∀ k, k < 2 → nthRead k (across.reg 0#3) across ≠ 0#16) ∧
    nthRead 2 (across.reg 0#3) across = 0#16 := by decide

/-- The packed string "Hi!" at x4000: two full characters, then a word whose high byte is zero. -/
def packedHi : State := ((s0.setReg 0 0x4000).setCell 0x4000 0x6948).setCell 0x4001 0x21

/-- Both clauses: after one full word, a word with a zero high byte; and with no full word, a zero low byte. -/
theorem test_witness_PutspOutputsItsReads :
    (∀ k, k < 1 → lowByte (nthRead k (packedHi.reg 0#3) packedHi) ≠ 0#8 ∧
      highByte (nthRead k (packedHi.reg 0#3) packedHi) ≠ 0#8) ∧
    (lowByte (nthRead 1 (packedHi.reg 0#3) packedHi) ≠ 0#8 ∧
      highByte (nthRead 1 (packedHi.reg 0#3) packedHi) = 0#8) ∧
    lowByte (nthRead 0 (s0.reg 0#3) s0) = 0#8 := by decide
theorem test_witness_TrapsChangeNothingElse : isTrap .puts = true ∧
    ∃ t, exec .puts across = .next t ∧ decide (t.cell 0xFE00 ≠ across.cell 0xFE00) = true :=
  ⟨rfl, next_of (by decide)⟩

/-! ### A walk that hangs (V-PUTS hang) -/

/-- With no zero cell, and a console that answers each poll with a byte that is not zero, no word read is zero. -/
theorem walkWords_nonzero (n : Nat) : ∀ (m : Nat) (a : Word) (s : State), n ≤ m → (∀ c, s.cell c ≠ 0#16) →
    s.pollAnswers = List.replicate m (some 1#8) → walkWords n a s = none := by
  induction n with
  | zero => intros; rfl
  | succ n ih =>
    intro m a s hm hc hp
    obtain ⟨m, rfl⟩ : ∃ k, m = k + 1 := ⟨m - 1, by omega⟩
    have hpa : s.pollAnswer = some 1#8 := by simp [State.pollAnswer, hp, List.replicate_succ]
    have hc' : ∀ c, (s.afterRead a).cell c ≠ 0#16 := by
      intro c
      unfold State.afterRead
      split
      · rw [State.cell_pollKeyboard, hpa]
        dsimp only
        split
        · decide
        · split
          · decide
          · exact hc c
      · exact hc c
    have step : walkWords (n + 1) a s
        = walkWords n (a + 1#16) ((s.afterRead a).emit (memRead a s).1) := by
      rw [walkWords, if_neg (memRead_fst a s ▸ hc' a), memRead_snd]
    rw [step]
    by_cases h : a = s.params.kbdrAddr
    · refine ih m _ _ (by omega) hc' ?_
      rw [State.emit_pollAnswers, State.afterRead, if_pos h, State.pollKeyboard_eq]
      simp [hp, List.replicate_succ]
    · refine ih (m + 1) _ _ (by omega) hc' ?_
      rw [State.emit_pollAnswers, State.afterRead, if_neg h, hp]

/-- The right side of WalksHangExactlyWithoutTerminator can hold: with a memory and a console like that, PUTS
hangs. -/
theorem test_puts_hangs (s : State) (hc : ∀ c, s.cell c ≠ 0#16)
    (hp : s.pollAnswers = List.replicate walkLimit (some 1#8)) : exec .puts s = .fault .hang := by
  simp only [exec, execPuts]
  rw [walkWords_nonzero walkLimit walkLimit _ s (Nat.le_refl _) hc hp]
  rfl

/-- A memory whose first `n` cells hold 1. -/
def ones (n : Nat) : Memory := (List.range n).map fun k => (k, 1#16)

theorem read_const {l : List Nat} {a : Nat} (h : a ∈ l) : Memory.read (l.map fun k => (k, 1#16)) a = 1#16 := by
  induction l with
  | nil => exact nomatch h
  | cons k rest ih =>
    by_cases e : a = k
    · simp [Memory.read, e]
    · simpa [Memory.read, e] using ih ((List.mem_cons.mp h).resolve_left e)

theorem read_ones (n a : Nat) (h : a < n) : Memory.read (ones n) a = 1#16 := read_const (List.mem_range.mpr h)

/-- A state with a given memory and console. -/
def holding (m : Memory) (polls : List (Option Byte)) : State := { s0 with mem := m, pollAnswers := polls }

theorem cell_holding (m : Memory) (polls : List (Option Byte)) (c : Word) :
    (holding m polls).cell c = m.read c.toNat := rfl

theorem pollAnswers_holding (m : Memory) (polls : List (Option Byte)) : (holding m polls).pollAnswers = polls := rfl

theorem test_witness_WalksHangExactlyWithoutTerminator : ∃ s : State, exec .puts s = .fault .hang :=
  ⟨holding (ones 65536) (List.replicate walkLimit (some 1#8)), test_puts_hangs _
    (fun c => by rw [cell_holding, read_ones _ _ c.isLt]; decide) (pollAnswers_holding _ _)⟩

/-- Opcode 15: one selector bit set, its neighbour clear. -/
theorem test_witness_DispatchVectorIsOneHot : (dispatchVector 0xF025).getLsbD 15 = true ∧
    (dispatchVector 0xF025).getLsbD 14 = false := by decide

end Sys2Proof.Tests
end

section
/-! PROOFS. The family of spec/00_scope.md: the model's invariant along a step (R7, R31, R60, R282), and sign
extension (R10, R103). -/

namespace Sys2Proof.Proofs.Scope

open Machine Claims

/-! ### The invariant along a step -/

/-- A GETC that leaves the block waiting has not changed the run state: a byte and an abort both end the wait. -/
theorem execGetc_run_of_waiting {s t : State} (h : execGetc s = .next t) (hw : t.inputWait = true) :
    t.run = s.run := by
  rcases execGetc_cases s with ⟨b, rest, -, e⟩ | ⟨rest, -, e⟩ | ⟨-, e⟩ <;> rw [e] at h <;> injection h with h <;>
    subst h
  · exact nomatch hw
  · exact nomatch hw
  · rfl

/-- An instruction's effect keeps the invariant of a Running block, if it changes the run state only where no GETC
is left waiting. -/
theorem inv_of_execEffect {i : Instr} {s t : State} (e : ExecEffect i s t) (hs : Inv s) (hr : s.run = .running)
    (hw : t.inputWait = true → t.run = s.run) : Inv t := by
  obtain ⟨hmem, hparams, -⟩ := hs
  exact ⟨e.mem_wf hmem, e.params ▸ hparams, fun w => (hw w).trans hr⟩

/-- A GETC keeps the invariant of a Running block, whether it was fetched or is taken up again (R282). -/
theorem execGetc_inv {s t : State} (hs : Inv s) (hr : s.run = .running) (h : execGetc s = .next t) : Inv t :=
  inv_of_execEffect (.of_getc (.inl rfl) h) hs hr (execGetc_run_of_waiting h)

/-- An instruction that runs while no GETC waits keeps the invariant: only a GETC begins a wait, and it leaves the
run state alone when it does. -/
theorem exec_inv {i : Instr} {s t : State} (hs : Inv s) (hr : s.run = .running) (hw : s.inputWait = false)
    (h : exec i s = .next t) : Inv t := by
  have e := exec_effect h
  exact inv_of_execEffect e hs hr fun w => (e.wait w).resolve_left (by simp [hw])

/-- The fetch keeps the invariant: its read may poll the keyboard, which writes whole cells (R63, R120). -/
theorem fetch_inv {s : State} (hs : Inv s) : Inv (fetch s).2 := by
  obtain ⟨hmem, hparams, hwait⟩ := hs
  exact ⟨State.afterRead_wf s.pc hmem, by simpa using hparams, by simpa using hwait⟩

/-- A model fault keeps the invariant if no GETC waits (R272). -/
theorem raiseFault_inv {s : State} (r : FaultReason) (hs : Inv s) (hw : s.inputWait = false) :
    Inv (raiseFault r s) := by
  obtain ⟨hmem, hparams, -⟩ := hs
  exact ⟨hmem, hparams, fun w => absurd (hw.symm.trans w) Bool.false_ne_true⟩

/-- Settles O22, by the cases of a step: a waiting GETC, the fetched instruction, or a fault of the strict decoder. -/
theorem stepKeepsTheInvariant : Obligations.StepKeepsTheInvariant := by
  intro s t hs h
  obtain ⟨hr, hcase⟩ := step_cases h
  have hfetch_run : (fetch s).2.run = .running := by simpa using hr
  have hfetch_wait : (fetch s).2.inputWait = s.inputWait := by simp
  rcases hcase with ⟨-, hgetc⟩ | ⟨hw, i, -, hexec⟩ | ⟨hw, -, rfl⟩
  · exact execGetc_inv hs hr hgetc
  · exact exec_inv (fetch_inv hs) hfetch_run (hfetch_wait.trans hw) hexec
  · exact raiseFault_inv _ (fetch_inv hs) (hfetch_wait.trans hw)

/-! ### Sign extension -/

/-- `sext` follows R10's formula at every width: below the field's width each bit is the field's, above it each is
the field's top bit. -/
theorem sext_formula {n : Nat} (v : BitVec n) : SextFormula v (sext v) := by
  unfold SextFormula sext
  ext k hk
  by_cases hn : k < n
  · cases v.msb <;> simp [BitVec.getElem_signExtend, hn]
  · have hv : v.getLsbD k = false := BitVec.getLsbD_of_ge v k (Nat.le_of_not_lt hn)
    have hones : (0xFFFF#16)[k - n] = true := BitVec.getElem_allOnes (v := 16) (k - n) (by omega)
    cases hm : v.msb <;> simp [BitVec.getElem_signExtend, hn, hv, hm, hones]

/-- A field no wider than a word keeps its signed value. -/
theorem toInt_sext {n : Nat} (v : BitVec n) (h : n ≤ 16) : (sext v).toInt = v.toInt :=
  BitVec.toInt_signExtend_of_le h

/-- Settles O10, from the formula and the signed value at every width up to a word's. -/
theorem signExtensionKeepsTheSignedValue : Obligations.SignExtensionKeepsTheSignedValue :=
  ⟨fun v => ⟨sext_formula v, toInt_sext v (by decide)⟩, fun v => ⟨sext_formula v, toInt_sext v (by decide)⟩,
    fun v => ⟨sext_formula v, toInt_sext v (by decide)⟩, fun v => ⟨sext_formula v, toInt_sext v (by decide)⟩⟩

end Sys2Proof.Proofs.Scope
end

section
/-! PROOFS. The family of spec/10_state.md: the run state (R31), PC (R26), COND (R28 to R30), COUNT (R32), the output
trace (R43, R283), the registers (R22), reset (R37 to R43), and memory as what can be read of it (R42, R60). -/

namespace Sys2Proof.Proofs.ArchState

open Machine Claims

/-! ### The effect of a step -/

/-- The decoder gives no TRAP of a handled vector: it gives the handler's name (R231). -/
theorem not_handled_of_fetches {s : State} {v : Byte} (hi : Fetches s (.trap v)) : v ∉ s.params.handledVectors := by
  simpa [Instr.wf] using decode_wf hi

/-- The instruction that a fetch finds at PC has PC as its address (R271). -/
theorem instrAddr_fetch (s : State) : (fetch s).2.instrAddr = s.pc := by
  rw [State.instrAddr, fetch_snd, State.setPc_pc, BitVec.add_sub_cancel]

/-- A step has the effect of a GETC that waited, that of the instruction it fetched, or is a strict decoder's
fault. -/
theorem step_effect {s t : State} (h : step s = .next t) :
    (s.inputWait = true ∧ ExecEffect .getc s t) ∨
    (s.inputWait = false ∧ ∃ i, Fetches s i ∧ ExecEffect i (fetch s).2 t) ∨
    (s.inputWait = false ∧ decode s.params (fetch s).1 = .error .nonCanonicalEncoding ∧
      t = raiseFault (.nonCanonicalEncoding (fetch s).1 s.pc) (fetch s).2) := by
  obtain ⟨-, ⟨hw, hgetc⟩ | ⟨hw, i, hi, hexec⟩ | ⟨hw, herr, ht⟩⟩ := step_cases h
  · exact .inl ⟨hw, .of_getc (.inl rfl) hgetc⟩
  · exact .inr (.inl ⟨hw, i, hi, exec_effect hexec⟩)
  · exact .inr (.inr ⟨hw, herr, instrAddr_fetch s ▸ ht⟩)

/-! ### The run state -/

/-- How a step of a Running block can leave the run state (R31). -/
def RunChange (s t : State) : Prop :=
  t.run = .running ∨
  (t.run = .halted ∧ s.inputWait = false ∧ Fetches s .halt) ∨
  (t.run = .aborted ∧ (s.inputWait = true ∨ Fetches s .getc) ∧ s.readAnswers.head? = some .abort) ∨
  (∃ v, t.run = .faulted (.unknownTrapVector v s.pc) ∧ s.inputWait = false ∧ Fetches s (.trap v) ∧
    v ∉ s.params.handledVectors) ∨
  (t.run = .faulted (.nonCanonicalEncoding (fetch s).1 s.pc) ∧ s.inputWait = false ∧
    decode s.params (fetch s).1 = .error .nonCanonicalEncoding)

/-- A GETC taken up again ends the run only by an abort (R284). -/
theorem runChange_of_waiting {s t : State} (hr : s.run = .running) (hw : s.inputWait = true)
    (e : RunEffect .getc s t) : RunChange s t := by
  rcases e with e | ⟨-, e⟩ | ⟨e, -, -, habort⟩ | ⟨v, e, -⟩
  · exact .inl (e.trans hr)
  · simp at e
  · exact .inr (.inr (.inl ⟨e, .inl hw, habort⟩))
  · exact nomatch e

/-- A fetched instruction changes the run state only as HALT, as an aborted GETC, or as an unhandled TRAP. -/
theorem runChange_of_fetches {s t : State} {i : Instr} (hr : s.run = .running) (hw : s.inputWait = false)
    (hi : Fetches s i) (e : RunEffect i (fetch s).2 t) : RunChange s t := by
  have hparams : (fetch s).2.params = s.params := by simp
  rcases e with e | ⟨e, rfl | rfl⟩ | ⟨e, -, rfl | rfl, habort⟩ | ⟨v, rfl, hv, e, -⟩
  · exact .inl (by simpa [hr] using e)
  · exact .inr (.inl ⟨e, hw, hi⟩)
  · exact absurd (not_handled_of_fetches hi) (by simp [Params.handledVectors])
  · exact .inr (.inr (.inl ⟨e, .inr hi, by simpa using habort⟩))
  · exact absurd (not_handled_of_fetches hi) (by simp [Params.handledVectors])
  · exact .inr (.inr (.inr (.inl ⟨v, instrAddr_fetch s ▸ e, hw, hi, hparams ▸ hv⟩)))

/-- Every step leaves the run state in one of the ways of R31. -/
theorem step_runChange {s t : State} (h : step s = .next t) : RunChange s t := by
  obtain ⟨hr, -⟩ := step_cases h
  rcases step_effect h with ⟨hw, e⟩ | ⟨hw, i, hi, e⟩ | ⟨hw, herr, rfl⟩
  · exact runChange_of_waiting hr hw e.run
  · exact runChange_of_fetches hr hw hi e.run
  · exact .inr (.inr (.inr (.inr ⟨rfl, hw, herr⟩)))

/-- No step is taken from Halted, Faulted or Aborted (R31). -/
theorem step_of_not_running {s : State} (h : s.run ≠ .running) : step s = .fault (.stopped s.run) := by
  unfold step
  cases hr : s.run with
  | running => exact absurd hr h
  | halted => rfl
  | faulted r => rfl
  | aborted => rfl

/-- Settles O16, by the ways in which a step can leave the run state. -/
theorem runStateChangesOnlyAsTheSpecSays : Obligations.RunStateChangesOnlyAsTheSpecSays := by
  intro s
  refine ⟨step_of_not_running, fun t h => ⟨(step_cases h).1, ?_⟩⟩
  rcases step_runChange h with e | ⟨e, hw, hi⟩ | ⟨e, hc, habort⟩ | ⟨v, e, hw, hi, hv⟩ | ⟨e, hw, herr⟩ <;> rw [e]
  · exact ⟨nofun, nofun, nofun⟩
  · exact ⟨fun _ => ⟨hw, hi⟩, nofun, nofun⟩
  · exact ⟨nofun, nofun, fun _ => ⟨hc, habort⟩⟩
  · exact ⟨nofun, fun r hr => ⟨hw, .inl ⟨v, hi, hv, (Run.faulted.inj hr).symm⟩⟩, nofun⟩
  · exact ⟨nofun, fun r hr => ⟨hw, .inr ⟨herr, (Run.faulted.inj hr).symm⟩⟩, nofun⟩

/-! ### PC and COND -/

/-- PC and COND stand. -/
def PcCondKept (s t : State) : Prop :=
  t.pc = s.pc ∧ t.cond = s.cond

/-- A string walk leaves PC and COND alone (R238). -/
theorem pcCondKept_of_walkEffect {s t : State} (w : WalkEffect s t) : PcCondKept s t := by
  obtain ⟨e, -⟩ := w
  rw [e]
  exact ⟨rfl, rfl⟩

theorem execGetc_keeps_pcCond {s t : State} (h : execGetc s = .next t) : PcCondKept s t := by
  rcases execGetc_cases s with ⟨b, rest, -, e⟩ | ⟨rest, -, e⟩ | ⟨-, e⟩ <;> rw [e] at h <;> injection h with h <;>
    subst h <;> exact ⟨rfl, rfl⟩

/-- A string trap that does not hang leaves PC and COND alone. -/
theorem pcCondKept_of_walk_or_hang {o : Host.Outcome State Fault Refusal} {s t : State}
    (hcases : (∃ u, o = .next u ∧ WalkEffect s u) ∨ o = .fault .hang) (h : o = .next t) : PcCondKept s t := by
  rcases hcases with ⟨u, e, w⟩ | e <;> rw [e] at h
  · injection h with h
    exact h ▸ pcCondKept_of_walkEffect w
  · exact nomatch h

theorem execOut_keeps_pcCond {s t : State} (h : execOut s = .next t) : PcCondKept s t := by
  injection h with h
  exact h ▸ ⟨rfl, rfl⟩

theorem execHalt_keeps_pcCond {s t : State} (h : execHalt s = .next t) : PcCondKept s t := by
  injection h with h
  exact h ▸ ⟨rfl, rfl⟩

/-- No handler of a TRAP writes PC or COND, nor does the fault of an unhandled vector (R238, R272). -/
theorem execTrap_keeps_pcCond {v : Byte} {s t : State} (h : execTrap v s = .next t) : PcCondKept s t := by
  rcases execTrap_cases v s with ⟨-, e⟩ | ⟨-, e⟩ | ⟨-, e⟩ | ⟨-, e⟩ | ⟨-, e⟩ | ⟨-, e⟩ <;> rw [e] at h
  · exact execGetc_keeps_pcCond h
  · exact execOut_keeps_pcCond h
  · exact pcCondKept_of_walk_or_hang (execPuts_cases s) h
  · exact pcCondKept_of_walk_or_hang (execPutsp_cases s) h
  · exact execHalt_keeps_pcCond h
  · injection h with h
    exact h ▸ ⟨rfl, rfl⟩

/-- The effect of an instruction on PC and COND: a transfer may write PC, and the instructions of R29 write COND with
the flags of some value. -/
structure PcCondEffect (i : Instr) (s t : State) : Prop where
  pc : transfers i = true ∨ t.pc = s.pc
  cond : t.cond = s.cond ∨ writesFlags i = true ∧ ∃ v, t.cond = flagsOf v

theorem PcCondEffect.of_kept {i : Instr} {s t : State} (k : PcCondKept s t) : PcCondEffect i s t :=
  ⟨.inr k.1, .inl k.2⟩

/-- A result written back, with PC as it was. -/
theorem PcCondEffect.of_writeBack {i : Instr} {s u : State} (d : RegIdx) (v : Word) (hi : writesFlags i = true)
    (hpc : u.pc = s.pc) : PcCondEffect i s (writeBack d v u) :=
  ⟨.inr hpc, .inr ⟨hi, v, rfl⟩⟩

/-- Every instruction that gives a next state has its effect on PC and COND. -/
theorem exec_pcCondEffect {i : Instr} {s t : State} (h : exec i s = .next t) : PcCondEffect i s t := by
  cases i <;> simp only [exec] at h
  case addReg | addImm | andReg | andImm | not | lea =>
    injection h with h
    exact h ▸ .of_writeBack _ _ rfl rfl
  case ld | ldr =>
    injection h with h
    exact h ▸ .of_writeBack _ _ rfl (State.afterRead_pc s _)
  case ldi =>
    injection h with h
    exact h ▸ .of_writeBack _ _ rfl (by simp)
  case jsr | jsrr | jmp | ret =>
    injection h with h
    exact h ▸ ⟨.inl rfl, .inl rfl⟩
  case br =>
    unfold execBr at h
    split at h <;> injection h with h <;> exact h ▸ ⟨.inl rfl, .inl rfl⟩
  case st | str | rti | reserved =>
    injection h with h
    exact h ▸ .of_kept ⟨rfl, rfl⟩
  case sti =>
    injection h with h
    exact h ▸ .of_kept ⟨State.afterRead_pc s _, State.afterRead_cond s _⟩
  case trap => exact .of_kept (execTrap_keeps_pcCond h)
  case getc => exact .of_kept (execGetc_keeps_pcCond h)
  case out => exact .of_kept (execOut_keeps_pcCond h)
  case puts => exact .of_kept (pcCondKept_of_walk_or_hang (execPuts_cases s) h)
  case putsp => exact .of_kept (pcCondKept_of_walk_or_hang (execPutsp_cases s) h)
  case halt => exact .of_kept (execHalt_keeps_pcCond h)

/-- A step leaves COND alone, or it fetched an instruction of R29 and COND holds the flags of some value. -/
theorem step_cond {s t : State} (h : step s = .next t) :
    t.cond = s.cond ∨
      s.inputWait = false ∧ (∃ i, Fetches s i ∧ writesFlags i = true) ∧ ∃ v, t.cond = flagsOf v := by
  obtain ⟨-, ⟨-, hgetc⟩ | ⟨hw, i, hi, hexec⟩ | ⟨-, -, rfl⟩⟩ := step_cases h
  · exact .inl (execGetc_keeps_pcCond hgetc).2
  · rcases (exec_pcCondEffect hexec).cond with e | ⟨hf, hv⟩
    · exact .inl (by simpa using e)
    · exact .inr ⟨hw, ⟨i, hi, hf⟩, hv⟩
  · exact .inl (by simp [raiseFault])

/-- `setcc` leaves exactly one flag set (R28). -/
theorem oneHot_flagsOf (v : Word) : OneHot (flagsOf v) :=
  flagsOf_cases v

/-- Settles O18: a step that does not leave COND alone writes the flags of a value. -/
theorem oneHotConditionIsKept : Obligations.OneHotConditionIsKept := by
  intro s t hs h
  rcases step_cond h with e | ⟨-, -, v, e⟩ <;> rw [e]
  · exact hs
  · exact oneHot_flagsOf v

/-- Settles O17, by the two things a step can do to COND. -/
theorem onlyFlagWritersChangeCond : Obligations.OnlyFlagWritersChangeCond := by
  intro s t h hne
  obtain ⟨hw, hi, v, e⟩ := (step_cond h).resolve_left hne
  exact ⟨hw, hi, e ▸ oneHot_flagsOf v⟩

/-- Settles O14: the fetch increments PC, and what it fetched leaves PC alone. -/
theorem nonTransfersContinueAtTheNextAddress : Obligations.NonTransfersContinueAtTheNextAddress := by
  intro s t i hw hi hnt h
  obtain ⟨-, ⟨hw', -⟩ | ⟨-, j, hj, hexec⟩ | ⟨-, herr, -⟩⟩ := step_cases h
  · exact absurd (hw.symm.trans hw') Bool.false_ne_true
  · obtain rfl : i = j := Except.ok.inj (hi.symm.trans hj)
    simpa [hnt] using (exec_pcCondEffect hexec).pc
  · exact nomatch hi.symm.trans herr

/-! ### The output trace -/

/-- An instruction with output that the decoder gives is OUT, PUTS or PUTSP by name. -/
theorem outputs_of_fetches {s : State} {i : Instr} (hi : Fetches s i) (ho : outputs s.params i) :
    Fetches s .out ∨ Fetches s .puts ∨ Fetches s .putsp := by
  rcases ho with rfl | rfl | rfl | rfl | rfl | rfl
  · exact .inl hi
  · exact .inr (.inl hi)
  · exact .inr (.inr hi)
  all_goals exact absurd (not_handled_of_fetches hi) (by simp [Params.handledVectors])

/-- Settles O20, by the effect of a step on the trace. -/
theorem traceOnlyGrows : Obligations.TraceOnlyGrows := by
  intro s t h
  have hfetch : (fetch s).2.trace = s.trace := by simp
  rcases step_effect h with ⟨-, e⟩ | ⟨hw, i, hi, e⟩ | ⟨-, -, rfl⟩
  · exact ⟨e.trace, fun hne => absurd (e.trace_eq.resolve_right (by simp [outputs])) hne⟩
  · refine ⟨hfetch ▸ e.trace, fun hne => ⟨hw, outputs_of_fetches hi ?_⟩⟩
    simpa using e.trace_eq.resolve_left (hfetch ▸ hne)
  · exact ⟨by simp [raiseFault], fun hne => absurd hfetch hne⟩

/-! ### COUNT -/

/-- The state with another COUNT. -/
def setCount (c : Word) (s : State) : State :=
  { s with count := c }

theorem setCount_pc (c : Word) (s : State) : (setCount c s).pc = s.pc := rfl
theorem setCount_cond (c : Word) (s : State) : (setCount c s).cond = s.cond := rfl
theorem setCount_run (c : Word) (s : State) : (setCount c s).run = s.run := rfl
theorem setCount_inputWait (c : Word) (s : State) : (setCount c s).inputWait = s.inputWait := rfl
theorem setCount_readAnswers (c : Word) (s : State) : (setCount c s).readAnswers = s.readAnswers := rfl
theorem setCount_params (c : Word) (s : State) : (setCount c s).params = s.params := rfl
theorem pollAnswer_setCount (c : Word) (s : State) : (setCount c s).pollAnswer = s.pollAnswer := rfl
theorem pcRel_setCount {n : Nat} (c : Word) (s : State) (off : BitVec n) :
    (setCount c s).pcRel off = s.pcRel off := rfl

/-- A meaning that does not look at COUNT and leaves it alone: with another COUNT it answers the same, with that
COUNT. -/
def CountBlind (f : State → Host.Outcome State Fault Refusal) : Prop :=
  ∀ c s, f (setCount c s) = mapNext (setCount c) (f s)

theorem afterRead_setCount (c a : Word) (s : State) : (setCount c s).afterRead a = setCount c (s.afterRead a) := by
  unfold State.afterRead State.pollKeyboard
  rw [setCount_params, pollAnswer_setCount]
  split
  · cases s.pollAnswer <;> rfl
  · rfl

theorem memRead_setCount (c a : Word) (s : State) :
    memRead a (setCount c s) = ((memRead a s).1, setCount c (memRead a s).2) := by
  unfold memRead
  rw [afterRead_setCount]
  rfl

theorem fetch_setCount (c : Word) (s : State) : fetch (setCount c s) = ((fetch s).1, setCount c (fetch s).2) := by
  unfold fetch
  rw [setCount_pc, memRead_setCount]
  rfl

theorem loadWord_setCount (c ea : Word) (d : RegIdx) (s : State) :
    loadWord d ea (setCount c s) = setCount c (loadWord d ea s) := by
  unfold loadWord
  rw [memRead_setCount]
  rfl

theorem walkWords_setCount (c : Word) (n : Nat) (a : Word) (s : State) :
    walkWords n a (setCount c s) = (walkWords n a s).map (setCount c) := by
  induction n generalizing a s with
  | zero => rfl
  | succ n ih =>
    simp only [walkWords, memRead_setCount]
    split
    · rfl
    · exact ih _ ((memRead a s).2.emit (memRead a s).1)

theorem walkBytes_setCount (c : Word) (n : Nat) (a : Word) (s : State) :
    walkBytes n a (setCount c s) = (walkBytes n a s).map (setCount c) := by
  induction n generalizing a s with
  | zero => rfl
  | succ n ih =>
    simp only [walkBytes, memRead_setCount]
    split
    · rfl
    · split
      · rfl
      · exact ih _ (((memRead a s).2.emit (zext8 (lowByte (memRead a s).1))).emit (zext8 (highByte (memRead a s).1)))

theorem walkOutcome_map (f : State → State) (r : Option State) :
    walkOutcome (r.map f) = mapNext f (walkOutcome r) := by
  cases r <;> rfl

theorem execGetc_countBlind : CountBlind execGetc := by
  intro c s
  unfold execGetc
  rw [setCount_readAnswers]
  split <;> rfl

theorem execPuts_countBlind : CountBlind execPuts := by
  intro c s
  exact (congrArg walkOutcome (walkWords_setCount c walkLimit (s.reg argReg) s)).trans (walkOutcome_map _ _)

theorem execPutsp_countBlind : CountBlind execPutsp := by
  intro c s
  exact (congrArg walkOutcome (walkBytes_setCount c walkLimit (s.reg argReg) s)).trans (walkOutcome_map _ _)

theorem execTrap_countBlind (v : Byte) : CountBlind (execTrap v) := by
  intro c s
  unfold execTrap
  rw [setCount_params]
  split
  · exact execGetc_countBlind c s
  split
  · rfl
  split
  · exact execPuts_countBlind c s
  split
  · exact execPutsp_countBlind c s
  split
  · rfl
  · rfl

/-- No instruction looks at COUNT or writes it (R32). -/
theorem exec_countBlind (i : Instr) : CountBlind (exec i) := by
  intro c s
  cases i <;> simp only [exec]
  case addReg | addImm | andReg | andImm | not | lea | jsr | jsrr | jmp | ret | rti | reserved | st | str | out
      | halt => rfl
  case br nzp off =>
    unfold execBr
    rw [setCount_cond]
    split <;> rfl
  case ld d off => exact congrArg _ (loadWord_setCount c (s.pcRel off) d s)
  case ldr d b off => exact congrArg _ (loadWord_setCount c (s.baseRel b off) d s)
  case ldi d off =>
    unfold execLdi
    rw [pcRel_setCount, memRead_setCount]
    exact congrArg _ (loadWord_setCount c _ d _)
  case sti r off =>
    unfold execSti
    rw [pcRel_setCount, memRead_setCount]
    rfl
  case trap v => exact execTrap_countBlind v c s
  case getc => exact execGetc_countBlind c s
  case puts => exact execPuts_countBlind c s
  case putsp => exact execPutsp_countBlind c s

theorem runInstr_countBlind : CountBlind runInstr := by
  intro c s
  unfold runInstr
  rw [fetch_setCount, setCount_params]
  dsimp only
  split
  · exact exec_countBlind _ c (fetch s).2
  · rfl

/-- No step looks at COUNT or writes it (R32). -/
theorem step_countBlind : CountBlind step := by
  intro c s
  unfold step cycle
  rw [setCount_run, setCount_inputWait]
  split
  · split
    · exact execGetc_countBlind c s
    · exact runInstr_countBlind c s
  all_goals rfl

/-- Settles O21: no instruction, and so no step, looks at COUNT; and the effect of a step leaves COUNT and the
parameters alone. -/
theorem countIsUnobservable : Obligations.CountIsUnobservable := by
  refine fun s c => ⟨step_countBlind c s, fun t h => ?_⟩
  rcases step_effect h with ⟨-, e⟩ | ⟨-, i, -, e⟩ | ⟨-, -, rfl⟩
  · exact ⟨e.count, e.params⟩
  · exact ⟨e.count.trans (by simp), e.params.trans (by simp)⟩
  · exact ⟨by simp [raiseFault], by simp [raiseFault]⟩

/-! ### Canonical memories -/

/-- A cell that does not read zero has an entry. -/
theorem exists_entry_of_read_ne_zero {m : Memory} {a : Nat} (h : m.read a ≠ 0#16) : ∃ c ∈ m, c.1 = a := by
  induction m with
  | nil => exact absurd rfl h
  | cons c rest ih =>
    obtain ⟨k, v⟩ := c
    by_cases hk : a = k
    · exact ⟨(k, v), by simp, hk.symm⟩
    · obtain ⟨c, hc, ha⟩ := ih (by simpa [Memory.read, hk] using h)
      exact ⟨c, List.mem_cons_of_mem _ hc, ha⟩

/-- The canonical form of a memory with a first entry: the entry is an address below 65536 with a word that is not
zero, every later address is greater, and the rest is canonical. -/
theorem wf_cons {k : Nat} {v : Word} {m : Memory} (h : Memory.wf ((k, v) :: m) = true) :
    k < 65536 ∧ v ≠ 0#16 ∧ (∀ c ∈ m, k < c.1) ∧ m.wf = true := by
  obtain ⟨hpair, hall⟩ := (Memory.wf_iff _).mp h
  obtain ⟨hlt, hrest⟩ := List.pairwise_cons.mp hpair
  obtain ⟨hk, hv⟩ := hall (k, v) (by simp)
  exact ⟨hk, hv, hlt, (Memory.wf_iff m).mpr ⟨hrest, fun c hc => hall c (List.mem_cons_of_mem _ hc)⟩⟩

@[simp] theorem read_first (k : Nat) (v : Word) (m : Memory) : Memory.read ((k, v) :: m) k = v := by
  simp [Memory.read]

theorem read_after_first {k a : Nat} (v : Word) (m : Memory) (h : a ≠ k) :
    Memory.read ((k, v) :: m) a = m.read a := by
  simp [Memory.read, h]

/-- The two memories read alike at every address of the block (R60). -/
def ReadAlike (m n : Memory) : Prop :=
  ∀ a, a < 65536 → m.read a = n.read a

theorem ReadAlike.symm {m n : Memory} (h : ReadAlike m n) : ReadAlike n m :=
  fun a ha => (h a ha).symm

/-- A canonical memory that reads as the empty one does is empty: a first entry would not read zero. -/
theorem eq_nil_of_readAlike_nil {m : Memory} (hm : m.wf = true) (h : ReadAlike m []) : m = [] := by
  cases m with
  | nil => rfl
  | cons c m =>
    obtain ⟨k, v⟩ := c
    obtain ⟨hk, hv, -, -⟩ := wf_cons hm
    exact absurd (by simpa [Memory.read] using h k hk) hv

/-- The first address of a canonical memory is not below that of another one that reads alike: the other has an entry
there too, and its entries rise. -/
theorem first_le_of_readAlike {k l : Nat} {v w : Word} {m n : Memory} (hm : Memory.wf ((k, v) :: m) = true)
    (hn : Memory.wf ((l, w) :: n) = true) (h : ReadAlike ((k, v) :: m) ((l, w) :: n)) : l ≤ k := by
  obtain ⟨hk, hv, -, -⟩ := wf_cons hm
  obtain ⟨-, -, hrise, -⟩ := wf_cons hn
  have hread : Memory.read ((l, w) :: n) k ≠ 0#16 := by
    rw [← h k hk, read_first]
    exact hv
  obtain ⟨c, hc, rfl⟩ := exists_entry_of_read_ne_zero hread
  rcases List.mem_cons.mp hc with rfl | hc
  · exact Nat.le_refl l
  · exact Nat.le_of_lt (hrise c hc)

/-- At an address below all its entries a memory reads zero. -/
theorem read_eq_zero_of_lt {k : Nat} {m : Memory} (h : ∀ c ∈ m, k < c.1) : m.read k = 0#16 := by
  refine Decidable.byContradiction fun hne => ?_
  obtain ⟨c, hc, hck⟩ := exists_entry_of_read_ne_zero hne
  exact absurd hck (Nat.ne_of_gt (h c hc))

/-- What follows the same first address in two canonical memories that read alike reads alike: at that address it
reads zero in both. -/
theorem readAlike_rest {k : Nat} {v w : Word} {m n : Memory} (hm : ∀ c ∈ m, k < c.1) (hn : ∀ c ∈ n, k < c.1)
    (h : ReadAlike ((k, v) :: m) ((k, w) :: n)) : ReadAlike m n := by
  intro a ha
  by_cases hak : a = k
  · rw [hak, read_eq_zero_of_lt hm, read_eq_zero_of_lt hn]
  · simpa only [read_after_first _ _ hak] using h a ha

/-- Settles O27, by induction along both lists: the first entries have one address and one word, and the rests read
alike. -/
theorem canonicalMemoriesThatReadAlikeAreEqual : Obligations.CanonicalMemoriesThatReadAlikeAreEqual := by
  intro m n hm hn (h : ReadAlike m n)
  induction m generalizing n with
  | nil => exact (eq_nil_of_readAlike_nil hn h.symm).symm
  | cons c m ih =>
    cases n with
    | nil => exact eq_nil_of_readAlike_nil hm h
    | cons e n =>
      obtain ⟨k, v⟩ := c
      obtain ⟨l, w⟩ := e
      obtain ⟨hk, -, hrise, hwf⟩ := wf_cons hm
      obtain ⟨-, -, hrise', hwf'⟩ := wf_cons hn
      obtain rfl : k = l := Nat.le_antisymm (first_le_of_readAlike hn hm h.symm) (first_le_of_readAlike hm hn h)
      obtain rfl : v = w := by simpa using h k hk
      rw [ih n hwf hwf' (readAlike_rest hrise hrise' h)]

/-! ### Registers, flags, reset -/

/-- Settles O28, from the read of a written register. -/
theorem registersHoldWhatIsWritten : Obligations.RegistersHoldWhatIsWritten :=
  fun s i v => ⟨State.reg_setReg_same s i v, fun r h => by rw [State.reg_setReg, if_neg h]⟩

/-- Settles O29: bit 15 is the sign bit, and the flags of a value are one of three. -/
theorem setccShowsTheSign : Obligations.SetccShowsTheSign := by
  refine fun s v => ⟨?_, oneHot_flagsOf v⟩
  have hsign : v.msb = v.getLsbD 15 := BitVec.msb_eq_getLsbD_last v
  rw [FlagsShow, hsign]
  rfl

/-- The reset state meets the invariant for every parameter setting that meets R7's constraints: memory is empty and
no GETC waits. -/
theorem inv_powerOn {p : Params} (hp : p.wf = true) (regs : Vector Word 8) (cond : Cond) (count : Word)
    (polls : List (Option Byte)) (reads : List ReadAnswer) : Inv (.powerOn p regs cond count polls reads) :=
  ⟨rfl, hp, nofun⟩

/-- Settles O23: `State.reset` is the reset state at the recommended parameters, which meet R7's constraints. -/
theorem resetMeetsTheInvariant : Obligations.ResetMeetsTheInvariant :=
  ⟨inv_powerOn (by decide) _ _ _ _ _, fun _ regs cond count polls reads hp =>
    inv_powerOn hp regs cond count polls reads⟩

/-- Settles O30: each clause is a field of `State.powerOn`, and a cell of the empty memory reads 0. -/
theorem resetStateIsTheSpecs : Obligations.ResetStateIsTheSpecs :=
  ⟨fun _ _ _ _ _ _ => ⟨rfl, rfl, rfl, fun _ => rfl, rfl, rfl, rfl⟩, resetRegs, resetCond, resetCount, rfl⟩

end Sys2Proof.Proofs.ArchState
end

section
/-! PROOFS. The family of spec/20_memory.md: which steps change memory (R66, R67), that every Running block has a next
state or walks on without end (R61, R64, R70, R235), the memory arbiter (R63, R65), the fetch after a store (R78), and
the image load (R301). -/

namespace Sys2Proof.Proofs.MemoryRules

open Machine Claims ArchState

/-! ### Which steps change memory -/

/-- Every cell but the two keyboard cells of `s` reads as before. -/
def OrdinaryCellsKept (s t : State) : Prop :=
  ∀ c, c ≠ s.params.kbsrAddr → c ≠ s.params.kbdrAddr → t.cell c = s.cell c

theorem ordinaryCellsKept_of_cellsKept {s t : State} (h : CellsKept s t) : OrdinaryCellsKept s t :=
  fun c _ _ => h c

theorem OrdinaryCellsKept.trans {s t u : State} (hp : t.params = s.params) (h : OrdinaryCellsKept s t)
    (h' : OrdinaryCellsKept t u) : OrdinaryCellsKept s u :=
  fun c hsr hdr => (h' c (hp ▸ hsr) (hp ▸ hdr)).trans (h c hsr hdr)

/-- A read changes no cell but the keyboard cells (R63). -/
theorem ordinaryCellsKept_afterRead (s : State) (a : Word) : OrdinaryCellsKept s (s.afterRead a) :=
  fun _ => State.cell_afterRead

/-- The fetch changes no cell but the keyboard cells (R67, R120). -/
theorem ordinaryCellsKept_fetch (s : State) : OrdinaryCellsKept s (fetch s).2 :=
  ordinaryCellsKept_afterRead s s.pc

/-- A load changes no cell but the keyboard cells. -/
theorem ordinaryCellsKept_loadWord (d : RegIdx) (ea : Word) (s : State) : OrdinaryCellsKept s (loadWord d ea s) :=
  ordinaryCellsKept_afterRead s ea

theorem execGetc_keeps_cells {s t : State} (h : execGetc s = .next t) : CellsKept s t := by
  rcases execGetc_cases s with ⟨b, rest, -, e⟩ | ⟨rest, -, e⟩ | ⟨-, e⟩ <;> rw [e] at h <;> injection h with h <;>
    exact h ▸ fun _ => rfl

/-- A string trap that does not hang changes no cell but the keyboard cells. -/
theorem ordinaryCellsKept_of_walk_or_hang {o : Host.Outcome State Fault Refusal} {s t : State}
    (hcases : (∃ u, o = .next u ∧ WalkEffect s u) ∨ o = .fault .hang) (h : o = .next t) :
    OrdinaryCellsKept s t := by
  rcases hcases with ⟨u, e, -, -, -, hcells⟩ | e <;> rw [e] at h
  · injection h with h
    exact h ▸ hcells
  · exact nomatch h

/-- No handler of a TRAP changes a cell but the keyboard cells, nor does the fault of an unhandled vector (R238,
R272). -/
theorem execTrap_keeps_ordinaryCells {v : Byte} {s t : State} (h : execTrap v s = .next t) :
    OrdinaryCellsKept s t := by
  rcases execTrap_cases v s with ⟨-, e⟩ | ⟨-, e⟩ | ⟨-, e⟩ | ⟨-, e⟩ | ⟨-, e⟩ | ⟨-, e⟩ <;> rw [e] at h
  · exact ordinaryCellsKept_of_cellsKept (execGetc_keeps_cells h)
  · exact Host.Outcome.next.inj h ▸ fun _ _ _ => rfl
  · exact ordinaryCellsKept_of_walk_or_hang (execPuts_cases s) h
  · exact ordinaryCellsKept_of_walk_or_hang (execPutsp_cases s) h
  · exact Host.Outcome.next.inj h ▸ fun _ _ _ => rfl
  · exact Host.Outcome.next.inj h ▸ fun _ _ _ => rfl

/-- An instruction that is no store changes no cell but the keyboard cells (R66, R67). -/
theorem exec_keeps_ordinaryCells {i : Instr} {s t : State} (hi : stores i = false) (h : exec i s = .next t) :
    OrdinaryCellsKept s t := by
  cases i <;> simp only [exec] at h
  case st | str | sti => exact nomatch hi
  case addReg | addImm | andReg | andImm | not | lea | jsr | jsrr | jmp | ret | rti | reserved | out | halt =>
    injection h with h
    exact h ▸ fun _ _ _ => rfl
  case br =>
    unfold execBr at h
    split at h <;> injection h with h <;> exact h ▸ fun _ _ _ => rfl
  case ld | ldr =>
    injection h with h
    exact h ▸ ordinaryCellsKept_loadWord _ _ s
  case ldi =>
    injection h with h
    exact h ▸ .trans (State.afterRead_params s _) (ordinaryCellsKept_afterRead s _) (ordinaryCellsKept_loadWord _ _ _)
  case trap => exact execTrap_keeps_ordinaryCells h
  case getc => exact ordinaryCellsKept_of_cellsKept (execGetc_keeps_cells h)
  case puts => exact ordinaryCellsKept_of_walk_or_hang (execPuts_cases s) h
  case putsp => exact ordinaryCellsKept_of_walk_or_hang (execPutsp_cases s) h

/-- A step changes no cell but the keyboard cells, or it fetched a store. -/
theorem step_keeps_ordinaryCells {s t : State} (h : step s = .next t) :
    OrdinaryCellsKept s t ∨ s.inputWait = false ∧ ∃ i, Fetches s i ∧ stores i = true := by
  obtain ⟨-, ⟨-, hgetc⟩ | ⟨hw, i, hi, hexec⟩ | ⟨-, -, rfl⟩⟩ := step_cases h
  · exact .inl (ordinaryCellsKept_of_cellsKept (execGetc_keeps_cells hgetc))
  · cases hst : stores i with
    | true => exact .inr ⟨hw, i, hi, hst⟩
    | false =>
      have hparams : (fetch s).2.params = s.params := by simp
      exact .inl ((ordinaryCellsKept_fetch s).trans hparams (exec_keeps_ordinaryCells hst hexec))
  · exact .inl (ordinaryCellsKept_fetch s)

/-- Settles O19: a step that fetched no store leaves every cell but the keyboard cells as it is. -/
theorem onlyStoresChangeOrdinaryCells : Obligations.OnlyStoresChangeOrdinaryCells :=
  fun _ _ a h hsr hdr hne => (step_keeps_ordinaryCells h).resolve_left fun hkept => hne (hkept a hsr hdr)

/-! ### A next state or an endless walk -/

theorem execGetc_answers (s : State) : ∃ t, execGetc s = .next t := by
  rcases execGetc_cases s with ⟨_, _, -, e⟩ | ⟨_, -, e⟩ | ⟨-, e⟩ <;> exact ⟨_, e⟩

/-- The instructions that walk a string: PUTS and PUTSP, by name or by their vector. -/
def walksString (p : Params) (i : Instr) : Prop :=
  i = .puts ∨ i = .putsp ∨ i = .trap p.tvPuts ∨ i = .trap p.tvPutsp

/-- The outcome is a next state, or the hang of an instruction that walks a string. -/
def NextOrHang (p : Params) (i : Instr) (o : Host.Outcome State Fault Refusal) : Prop :=
  (∃ t, o = .next t) ∨ o = .fault .hang ∧ walksString p i

/-- A string trap answers the state of its walk, or Hang. -/
theorem NextOrHang.of_walk {p : Params} {i : Instr} {s : State} {o : Host.Outcome State Fault Refusal}
    (hi : walksString p i) (hcases : (∃ u, o = .next u ∧ WalkEffect s u) ∨ o = .fault .hang) :
    NextOrHang p i o :=
  hcases.imp (fun ⟨u, e, _⟩ => ⟨u, e⟩) fun e => ⟨e, hi⟩

theorem execTrap_nextOrHang (v : Byte) (s : State) : NextOrHang s.params (.trap v) (execTrap v s) := by
  rcases execTrap_cases v s with ⟨-, e⟩ | ⟨-, e⟩ | ⟨hv, e⟩ | ⟨hv, e⟩ | ⟨-, e⟩ | ⟨-, e⟩ <;> rw [e]
  · exact .inl (execGetc_answers s)
  · exact .inl ⟨_, rfl⟩
  · exact .of_walk (.inr (.inr (.inl (hv ▸ rfl)))) (execPuts_cases s)
  · exact .of_walk (.inr (.inr (.inr (hv ▸ rfl)))) (execPutsp_cases s)
  · exact .inl ⟨_, rfl⟩
  · exact .inl ⟨_, rfl⟩

/-- Every instruction gives a next state, or it hangs in a string walk: no address and no arithmetic stops it. -/
theorem exec_nextOrHang (i : Instr) (s : State) : NextOrHang s.params i (exec i s) := by
  cases i
  case getc => exact .inl (execGetc_answers s)
  case puts => exact .of_walk (.inl rfl) (execPuts_cases s)
  case putsp => exact .of_walk (.inr (.inl rfl)) (execPutsp_cases s)
  case trap v => exact execTrap_nextOrHang v s
  case br nzp off =>
    simp only [exec, execBr]
    split <;> exact .inl ⟨_, rfl⟩
  case addReg | addImm | andReg | andImm | not | lea | ld | ldi | ldr | st | sti | str | jsr | jsrr | jmp | ret | rti
      | reserved | out | halt => exact .inl ⟨_, rfl⟩

/-- An instruction that walks a string, and that the decoder gives, is PUTS or PUTSP by name. -/
theorem walksString_of_fetches {s : State} {i : Instr} (hi : Fetches s i) (hwalk : walksString s.params i) :
    Fetches s .puts ∨ Fetches s .putsp := by
  rcases hwalk with rfl | rfl | rfl | rfl
  · exact .inl hi
  · exact .inr hi
  all_goals exact absurd (not_handled_of_fetches hi) (by simp [Params.handledVectors])

/-- The two things `runInstr` can do with the fetched word: execute its instruction, or fault (R108, R120). -/
theorem runInstr_cases (s : State) :
    (∃ i, Fetches s i ∧ runInstr s = exec i (fetch s).2) ∨
      runInstr s = .next (raiseFault (.nonCanonicalEncoding (fetch s).1 (fetch s).2.instrAddr) (fetch s).2) := by
  unfold runInstr
  dsimp only
  split
  case h_1 i hi => exact .inl ⟨i, hi, rfl⟩
  case h_2 => exact .inr rfl

/-- Settles O15: a waiting GETC, a fault of the strict decoder and every instruction but a string walk give a next
state. -/
theorem runningStepAnswersNextOrHangs : Obligations.RunningStepAnswersNextOrHangs := by
  intro s hr
  cases hw : s.inputWait with
  | true =>
    have hstep : step s = execGetc s := by simp [step, cycle, hr, hw]
    exact .inl (hstep ▸ execGetc_answers s)
  | false =>
    rw [step_running hr hw]
    rcases runInstr_cases s with ⟨i, hi, e⟩ | e <;> rw [e]
    · have hparams : (fetch s).2.params = s.params := by simp
      exact (exec_nextOrHang i (fetch s).2).imp_right fun ⟨hhang, hwalk⟩ =>
        ⟨hhang, rfl, walksString_of_fetches hi (hparams ▸ hwalk)⟩
    · exact .inl ⟨_, rfl⟩

/-! ### The memory arbiter -/

/-- What the next poll finds is its answer: the head of the answers to come, or the draw (R281). -/
theorem pollFinds_iff (s : State) (p : Option Byte) : PollFinds s p ↔ s.pollAnswer = p := by
  unfold PollFinds State.pollAnswer
  cases s.pollAnswers <;> simp

/-- A read of KBDR is a poll (R63). -/
theorem afterRead_kbdr (s : State) : s.afterRead s.params.kbdrAddr = s.pollKeyboard :=
  if_pos rfl

/-- A poll that finds a byte leaves x8000 in KBSR and the byte in KBDR, where these are two cells (R63). -/
theorem keyboardCells_of_byte {s : State} {b : Byte} (hne : s.params.kbsrAddr ≠ s.params.kbdrAddr)
    (hb : PollFinds s (some b)) :
    s.pollKeyboard.cell s.params.kbsrAddr = 0x8000#16 ∧ s.pollKeyboard.cell s.params.kbdrAddr = b.zeroExtend 16 := by
  simp [State.cell_pollKeyboard, (pollFinds_iff s _).mp hb, hne, zext8]

/-- A poll that finds no byte leaves 0 in KBSR and keeps KBDR, where these are two cells (R63). -/
theorem keyboardCells_of_no_byte {s : State} (hne : s.params.kbsrAddr ≠ s.params.kbdrAddr) (hb : PollFinds s none) :
    s.pollKeyboard.cell s.params.kbsrAddr = 0#16 ∧
      s.pollKeyboard.cell s.params.kbdrAddr = s.cell s.params.kbdrAddr := by
  simp [State.cell_pollKeyboard, (pollFinds_iff s _).mp hb, hne.symm]

/-- A read leaves all but memory and the answers to polls as it is (R63). -/
theorem restKept_afterRead (s : State) (a : Word) : RestKept s (s.afterRead a) := by
  simp [RestKept]

/-- Settles O24: a read is a poll at KBDR_ADDR and leaves the state alone elsewhere. -/
theorem memReadRoutesOnTheAddress : Obligations.MemReadRoutesOnTheAddress := by
  intro s a hne
  refine ⟨State.reg_afterRead s a, State.afterRead_pc s a, State.afterRead_cond s a, restKept_afterRead s a, ?_, ?_⟩
  · intro ha
    rw [memRead_plain ha]
    exact ⟨rfl, fun _ => rfl, rfl, rfl⟩
  · rintro rfl
    rw [memRead_fst, memRead_snd, afterRead_kbdr]
    refine ⟨by rw [State.pollKeyboard_eq], by rw [State.pollKeyboard_eq], ?_, fun b hb => ?_, fun hb => ?_⟩
    · exact afterRead_kbdr s ▸ ordinaryCellsKept_afterRead s _
    · obtain ⟨hsr, hdr⟩ := keyboardCells_of_byte hne hb
      exact ⟨hsr, hdr, hdr⟩
    · obtain ⟨hsr, hdr⟩ := keyboardCells_of_no_byte hne hb
      exact ⟨hsr, hdr, hdr⟩

/-- Settles O25: a write sets one cell and no other field of the state. -/
theorem memWriteIsAPlainStore : Obligations.MemWriteIsAPlainStore :=
  fun s a v => ⟨State.cell_setCell_same s a v, fun b hb => (State.cell_setCell s a b v).trans (if_neg hb),
    fun _ => rfl, rfl, rfl, ⟨rfl, rfl⟩, ⟨rfl, rfl, rfl, rfl, rfl, rfl⟩⟩

/-- Settles O26: away from KBDR_ADDR the fetch is a plain read of the cell just written. -/
theorem fetchSeesTheLastStore : Obligations.FetchSeesTheLastStore := by
  intro s a v ha
  have hplain : a ≠ ((memWrite a v s).setPc a).params.kbdrAddr := ha
  rw [fetch_fst, State.setPc_pc, memRead_plain hplain]
  exact State.cell_setCell_same s a v

/-! ### The image load -/

/-- The load writes cells and nothing else (R68, R301). -/
theorem loadWords_eq (a : Word) (ws : List Word) (s : State) :
    loadWords a ws s = { s with mem := (loadWords a ws s).mem } := by
  induction ws generalizing a s with
  | nil => rfl
  | cons w ws ih => exact ih (a + 1#16) (s.setCell a w)

/-- The address after `a`, and `k` further: `k + 1` after `a`, modulo 65536. -/
theorem add_one_add_ofNat (a : Word) (k : Nat) : a + 1#16 + BitVec.ofNat 16 k = a + BitVec.ofNat 16 (k + 1) := by
  rw [BitVec.add_assoc, ← BitVec.ofNat_add, Nat.add_comm]

/-- A cell that gets no word of the load reads as before. -/
theorem cell_loadWords_other {a c : Word} {ws : List Word} (s : State)
    (h : ∀ k, k < ws.length → a + BitVec.ofNat 16 k ≠ c) : (loadWords a ws s).cell c = s.cell c := by
  induction ws generalizing a s with
  | nil => rfl
  | cons w ws ih =>
    have hc : c ≠ a := fun e => h 0 (Nat.succ_pos _) (by simp [e])
    have hrest : ∀ k, k < ws.length → a + 1#16 + BitVec.ofNat 16 k ≠ c := fun k hk =>
      add_one_add_ofNat a k ▸ h (k + 1) (Nat.succ_lt_succ hk)
    rw [loadWords, ih _ hrest, State.cell_setCell, if_neg hc]

/-- Word `k` of the load stands in its cell, if no later word goes to the same cell (R301). -/
theorem cell_loadWords {a : Word} {ws : List Word} {k : Nat} (s : State) (hk : k < ws.length)
    (hlast : ∀ j, k < j → j < ws.length → a + BitVec.ofNat 16 j ≠ a + BitVec.ofNat 16 k) :
    (loadWords a ws s).cell (a + BitVec.ofNat 16 k) = ws.getD k 0 := by
  induction ws generalizing a s k with
  | nil => exact absurd hk (Nat.not_lt_zero k)
  | cons w ws ih =>
    rw [loadWords]
    cases k with
    | zero =>
      have hlater : ∀ j, j < ws.length → a + 1#16 + BitVec.ofNat 16 j ≠ a := fun j hj =>
        add_one_add_ofNat a j ▸ by simpa using hlast (j + 1) (Nat.succ_pos j) (Nat.succ_lt_succ hj)
      simp [cell_loadWords_other _ hlater]
    | succ k =>
      rw [← add_one_add_ofNat a k]
      refine ih _ (Nat.lt_of_succ_lt_succ hk) fun j hj hlen => ?_
      rw [add_one_add_ofNat, add_one_add_ofNat]
      exact hlast (j + 1) (Nat.succ_lt_succ hj) (Nat.succ_lt_succ hlen)

/-- A byte string has a word for every two bytes. -/
theorem length_imageWords : ∀ bytes : List Byte, (imageWords bytes).length = bytes.length / 2
  | [] => rfl
  | [_] => by simp [imageWords]
  | hi :: lo :: rest => by
    have ih := length_imageWords rest
    simp only [imageWords, List.length_cons]
    omega

/-- Word `k` of a byte string is its bytes `2 k` and `2 k + 1`, high byte first (R69). -/
theorem getD_imageWords : ∀ {bytes : List Byte} {k : Nat}, 2 * k + 1 < bytes.length →
    (imageWords bytes).getD k 0 = bytes.getD (2 * k) 0 ++ bytes.getD (2 * k + 1) 0
  | [], _, h => absurd h (Nat.not_lt_zero _)
  | [_], _, h => absurd (Nat.lt_of_succ_lt_succ h) (Nat.not_lt_zero _)
  | _ :: _ :: _, 0, _ => rfl
  | _ :: _ :: rest, k + 1, h => by
    have hrest : 2 * k + 1 < rest.length := by
      simp only [List.length_cons] at h
      omega
    have ih := getD_imageWords hrest
    exact ih

/-- A short or odd image is refused (R301). -/
theorem load_refused {image : List Byte} (s : State) (h : image.length < 2 ∨ image.length % 2 = 1) :
    ∃ r, load image s = .error r := by
  unfold load
  by_cases hshort : image.length < 2
  · exact ⟨_, if_pos hshort⟩
  · exact ⟨_, (if_neg hshort).trans (if_pos (h.resolve_left hshort))⟩

/-- Any other image is loaded: the words after the first, from the address the first gives (R301). -/
theorem load_accepted {image : List Byte} (s : State) (hlen : 2 ≤ image.length) (heven : image.length % 2 = 0) :
    load image s = .ok (loadWords (image.getD 0 0 ++ image.getD 1 0) (imageWords image).tail s) := by
  have horigin : (imageWords image).headD 0 = image.getD 0 0 ++ image.getD 1 0 := by
    rw [← getD_imageWords (k := 0) hlen]
    cases imageWords image <;> rfl
  rw [load, if_neg (Nat.not_lt.mpr hlen), if_neg (by omega), horigin]

/-- Settles O31: the image's words after its origin are loaded one a cell. -/
theorem imageLoadWritesItsWords : Obligations.ImageLoadWritesItsWords := by
  refine fun image s => ⟨load_refused s, fun hlen heven => ?_⟩
  have hcount : (imageWords image).tail.length = (image.length - 2) / 2 := by
    rw [List.length_tail, length_imageWords]
    omega
  refine ⟨_, load_accepted s hlen heven, loadWords_eq _ _ s, fun k hk hlast => ?_, fun a ha => ?_⟩
  · have hbytes : 2 * (k + 1) + 1 < image.length := by omega
    have hword : (imageWords image).tail.getD k 0 = image.getD (2 + 2 * k) 0 ++ image.getD (3 + 2 * k) 0 := by
      rw [show 2 + 2 * k = 2 * (k + 1) by omega, show 3 + 2 * k = 2 * (k + 1) + 1 by omega, ← getD_imageWords hbytes]
      cases imageWords image <;> rfl
    rw [← hword]
    exact cell_loadWords s (hcount ▸ hk) (hcount ▸ hlast)
  · exact cell_loadWords_other s (hcount ▸ ha)

end Sys2Proof.Proofs.MemoryRules
end

section
/-! PROOFS. The family of spec/30_encoding.md: fields (R101), dispatch (R106, R107), fixed bits (R104, R108), the
encoder (R110, R111), the assembler's offsets (R134), and the step's fetch and decode (R120). -/

namespace Sys2Proof.Proofs.Encoding

open Machine Claims

/-! ### A field as a shift and a mask (R101) -/

/-- A field cut from a word and extended with zeros is the word shifted down and masked. -/
theorem zeroExtend_extract (w : Word) (a n : Nat) :
    (w.extractLsb' a n).zeroExtend 16 = (w >>> a) &&& BitVec.ofNat 16 (2 ^ n - 1) := by
  ext k hk
  by_cases hn : k < n <;> simp [hn, hk, ← BitVec.getLsbD_eq_getElem, BitVec.getLsbD_ofNat]

theorem extract_bit (w : Word) (a : Nat) : w.extractLsb' a 1 = BitVec.ofBool (w.getLsbD a) := by
  rw [getLsbD_extract]
  generalize w.extractLsb' a 1 = b
  revert b
  decide

theorem getLsbD_iff_fieldRaw (w : Word) (a : Nat) :
    w.getLsbD a = true ↔ fieldRaw { width := 1, offset := a } w = 1#16 := by
  rw [fieldRaw, ← zeroExtend_extract, extract_bit]
  cases w.getLsbD a <;> simp

/-- Settles O4: each field is cut at the offset and width of its descriptor, a selector as a field of width one. -/
theorem fieldsAreShiftedAndMasked : Obligations.FieldsAreShiftedAndMasked := by
  intro w
  have hcut : ∀ a n, (w.extractLsb' a n).zeroExtend 16 = fieldRaw { width := n, offset := a } w :=
    zeroExtend_extract w
  exact ⟨hcut 9 3, hcut 6 3, hcut 0 3, hcut 0 5, hcut 9 3, hcut 0 9, hcut 0 11, hcut 0 6, hcut 0 6, hcut 0 8,
    getLsbD_iff_fieldRaw w 5, getLsbD_iff_fieldRaw w 11⟩

/-! ### Dispatch (R106, R107) -/

/-- Settles O5: the dispatch vector is the power of two whose exponent is the opcode. -/
theorem dispatchVectorIsOneHot : Obligations.DispatchVectorIsOneHot := by
  intro w k hk
  have hpow : dispatchVector w = BitVec.twoPow 16 (w.extractLsb' 12 4).toNat := (BitVec.twoPow_eq ..).symm
  rw [hpow, BitVec.getLsbD_twoPow]
  simp only [Bool.and_eq_true, decide_eq_true_eq]
  omega

/-- Case analysis on an opcode, each case named after its row of R107. -/
theorem opcode_cases {motive : BitVec 4 → Prop} (br : motive 0#4) (add : motive 1#4) (ld : motive 2#4)
    (st : motive 3#4) (jsr : motive 4#4) (and : motive 5#4) (ldr : motive 6#4) (str : motive 7#4) (rti : motive 8#4)
    (not : motive 9#4) (ldi : motive 10#4) (sti : motive 11#4) (jmp : motive 12#4) (reserved : motive 13#4)
    (lea : motive 14#4) (trap : motive 15#4) : ∀ op : BitVec 4, motive op
  | ⟨⟨0, _⟩⟩ => br
  | ⟨⟨1, _⟩⟩ => add
  | ⟨⟨2, _⟩⟩ => ld
  | ⟨⟨3, _⟩⟩ => st
  | ⟨⟨4, _⟩⟩ => jsr
  | ⟨⟨5, _⟩⟩ => and
  | ⟨⟨6, _⟩⟩ => ldr
  | ⟨⟨7, _⟩⟩ => str
  | ⟨⟨8, _⟩⟩ => rti
  | ⟨⟨9, _⟩⟩ => not
  | ⟨⟨10, _⟩⟩ => ldi
  | ⟨⟨11, _⟩⟩ => sti
  | ⟨⟨12, _⟩⟩ => jmp
  | ⟨⟨13, _⟩⟩ => reserved
  | ⟨⟨14, _⟩⟩ => lea
  | ⟨⟨15, _⟩⟩ => trap
  | ⟨⟨k + 16, hk⟩⟩ => absurd hk (by omega)

theorem dispatch_trap (p : Params) {f : Fields} (h : f.opcode = 15#4) :
    dispatch p f = decodeTrap p f.trapvect8 := by
  simp [dispatch, h]

/-- Under R7's constraint on the vectors each handled vector selects its own handler. -/
theorem decodeTrap_handled {p : Params} (hp : p.wf = true) :
    decodeTrap p p.tvGetc = .getc ∧ decodeTrap p p.tvOut = .out ∧ decodeTrap p p.tvPuts = .puts ∧
      decodeTrap p p.tvPutsp = .putsp ∧ decodeTrap p p.tvHalt = .halt := by
  simp only [Params.wf, Bool.and_eq_true, decide_eq_true_eq, List.nodup_cons, List.mem_cons, not_or] at hp
  obtain ⟨-, ⟨hgo, hgp, hgq, hgh, -⟩, ⟨hop, hoq, hoh, -⟩, ⟨hpq, hph, -⟩, ⟨hqh, -⟩, -⟩ := hp
  simp [decodeTrap, Ne.symm hgo, Ne.symm hgp, Ne.symm hgq, Ne.symm hgh, Ne.symm hop, Ne.symm hoq, Ne.symm hoh,
    Ne.symm hpq, Ne.symm hph, Ne.symm hqh]

theorem decodeTrap_unhandled {p : Params} {v : Byte} (h : v ∉ p.handledVectors) : decodeTrap p v = .trap v := by
  simp_all [decodeTrap, Params.handledVectors]

/-- Whichever name a vector gets, its word is the vector's. -/
theorem encode_decodeTrap (p : Params) (v : Byte) : encode p (decodeTrap p v) = 15#4 ++ 0#4 ++ v := by
  unfold decodeTrap
  iterate 5
    split
    case isTrue h =>
      subst h
      rfl
  rfl

/-- RET has the word of JMP through R7 (R183). -/
theorem encode_jump (p : Params) (b : RegIdx) :
    encode p (if b = 7#3 then .ret else .jmp b) = 12#4 ++ 0#3 ++ b ++ 0#6 := by
  split
  case isTrue h => exact h ▸ rfl
  case isFalse => rfl

/-! ### What the decoder answers (R108) -/

theorem decode_eq_error_iff (p : Params) (w : Word) :
    decode p w = .error .nonCanonicalEncoding ↔ p.strictFixedBits = true ∧ canonical w = false := by
  unfold decode
  split <;> simp_all

theorem decode_eq_ok_iff (p : Params) (w : Word) (i : Instr) :
    decode p w = .ok i ↔ (p.strictFixedBits = true → canonical w = true) ∧ dispatch p (fieldsOf w) = i := by
  unfold decode
  split <;> simp_all

theorem decode_lax {p : Params} (h : p.strictFixedBits = false) (w : Word) :
    decode p w = .ok (dispatch p (fieldsOf w)) :=
  (decode_eq_ok_iff p w _).mpr ⟨by simp [h], rfl⟩

/-- Settles O6: without the strict check the decoder answers what the dispatch selects. -/
theorem everyWordDecodesByDefault : Obligations.EveryWordDecodesByDefault :=
  fun _ w hlax => ⟨_, decode_lax hlax w, decode_wf (decode_lax hlax w)⟩

/-! ### From an instruction to its word and back (R104, R111) -/

theorem encode_opcode (p : Params) (i : Instr) : (fieldsOf (encode p i)).opcode = opcodeOf i := by
  open Laws.EncodedOpcode in
  cases i with
  | br nzp off => exact br nzp off p
  | addReg d s t => exact addReg d s t p
  | addImm d s imm => exact addImm d s imm p
  | ld d off => exact ld d off p
  | st s off => exact st s off p
  | jsr off => exact jsr off p
  | jsrr b => exact jsrr b p
  | andReg d s t => exact andReg d s t p
  | andImm d s imm => exact andImm d s imm p
  | ldr d b off => exact ldr d b off p
  | str s b off => exact str s b off p
  | rti => exact rti p
  | not d s => exact not d s p
  | ldi d off => exact ldi d off p
  | sti s off => exact sti s off p
  | jmp b => exact jmp b p
  | ret => exact ret p
  | reserved => exact reserved p
  | lea d off => exact lea d off p
  | trap v => exact trap v p
  | getc => exact getc p
  | out => exact out p
  | puts => exact puts p
  | putsp => exact putsp p
  | halt => exact halt p

/-- ADD and AND in register mode have `imm_sel` clear. -/
theorem threeReg_immSel (o : BitVec 4) (r q t : BitVec 3) :
    (o ++ r ++ q ++ 0#3 ++ t : Word).getLsbD 5 = false := by
  rw [getLsbD_extract, threeReg_fixed _ _ _ _ _ 5 1 (by decide) (by decide)]
  rfl

/-- ADD and AND in immediate mode have `imm_sel` set. -/
theorem regImm_immSel (o : BitVec 4) (r q : BitVec 3) (x : BitVec 5) :
    (o ++ r ++ q ++ 1#1 ++ x : Word).getLsbD 5 = true := by
  rw [getLsbD_extract, regImm_sel]
  rfl

theorem jsr_longSel (p : Params) (off : BitVec 11) : (encode p (.jsr off)).getLsbD 11 = true := by
  rw [getLsbD_extract, encode, longOff_high _ _ 11 1 (by decide)]
  rfl

theorem jsrr_longSel (p : Params) (b : RegIdx) : (encode p (.jsrr b)).getLsbD 11 = false := by
  rw [getLsbD_extract, encode, baseOnly_high _ _ _ 11 1 (by decide)]
  rfl

/-- The dispatch on an encoded instruction's fields selects the instruction, format by format. -/
theorem dispatch_encode {p : Params} {i : Instr} (hp : p.wf = true) (hi : i.wf p = true) :
    dispatch p (fieldsOf (encode p i)) = i := by
  have ho := encode_opcode p i
  obtain ⟨hgetc, hout, hputs, hputsp, hhalt⟩ := decodeTrap_handled hp
  cases i
  case trap v =>
    have hv : v ∉ p.handledVectors := by simpa [Instr.wf] using hi
    rw [dispatch_trap p ho]
    simp only [fieldsOf, encode, vector_low, decodeTrap_unhandled hv]
  case getc | out | puts | putsp | halt =>
    rw [dispatch_trap p ho]
    simp only [fieldsOf, encode, vector_low]
    assumption
  all_goals simp only [dispatch, ho, opcodeOf, BitVec.ofNat_eq_ofNat]
  case br | ld | st | ldi | sti | lea => simp only [fieldsOf, encode, regOff_reg, regOff_off]
  case ldr | str | not => simp only [fieldsOf, encode, regReg_r0, regReg_r1, regReg_off]
  case addReg | andReg =>
    simp only [fieldsOf, encode, threeReg_r0, threeReg_r1, threeReg_r2, threeReg_immSel, Bool.false_eq_true, if_false]
  case addImm | andImm => simp only [fieldsOf, encode, regImm_r0, regImm_r1, regImm_imm, regImm_immSel, if_true]
  case jsr off =>
    simp only [fieldsOf, jsr_longSel, if_true]
    simp only [encode, longOff_off]
  case jsrr b =>
    simp only [fieldsOf, jsrr_longSel, Bool.false_eq_true, if_false]
    simp only [encode, baseOnly_reg]
  case jmp b =>
    have hb : b ≠ 7#3 := by simpa [Instr.wf] using hi
    simp only [fieldsOf, encode, baseOnly_reg, hb, if_false]
  case ret => exact if_pos (by decide : (fieldsOf 0xC1C0#16).r1 = 7#3)

theorem canonical_encode (p : Params) (i : Instr) : canonical (encode p i) = true := by
  have ho := encode_opcode p i
  cases i <;> simp only [canonical, ho, opcodeOf, BitVec.ofNat_eq_ofNat]
  case addReg | andReg =>
    rw [encode, threeReg_fixed _ _ _ _ _ 3 2 (by decide) (by decide)]
    simp
  case addImm | andImm => simp only [fieldsOf, encode, regImm_immSel, Bool.true_or]
  case jsr => simp only [fieldsOf, jsr_longSel, Bool.true_or]
  case jsrr =>
    simp only [fieldsOf, encode, baseOnly_low, baseOnly_high _ _ _ 9 2 (by decide)]
    simp
  case not => simp only [fieldsOf, encode, regReg_off, beq_self_eq_true]
  case jmp =>
    simp only [fieldsOf, encode, baseOnly_low, baseOnly_high _ _ _ 9 3 (by decide)]
    simp
  case ret => exact (by decide : ((fieldsOf 0xC1C0#16).r0 == 0#3 && (fieldsOf 0xC1C0#16).ones6 == 0#6) = true)
  case br | ld | st | ldi | sti | lea | ldr | str | rti | reserved => rfl
  case trap | getc | out | puts | putsp | halt =>
    rw [encode, vector_high _ _ 8 4 (by decide)]
    rfl

/-- Settles O1: the encoded word is canonical, and its fields select the instruction again. -/
theorem decodeOfEncodeIsIdentity : Obligations.DecodeOfEncodeIsIdentity := fun p i hp hi =>
  ⟨(decode_eq_ok_iff p _ i).mpr ⟨fun _ => canonical_encode p i, dispatch_encode hp hi⟩, encode_opcode p i⟩

/-! ### From a word to its instruction and back (R104, R108) -/

section pieces
variable (w : Word)

/-- Two neighbouring fields side by side are one field. -/
theorem extract_append (a m n : Nat) :
    w.extractLsb' (a + n) m ++ w.extractLsb' a n = w.extractLsb' a (m + n) :=
  BitVec.extractLsb'_append_extractLsb'_eq_extractLsb' rfl

theorem regOff_pieces : (w.extractLsb' 12 4 ++ w.extractLsb' 9 3 ++ w.extractLsb' 0 9 : Word) = w := by
  rw [extract_append w 9 4 3]
  exact (extract_append w 0 7 9).trans (extract_all w)

theorem regReg_pieces :
    (w.extractLsb' 12 4 ++ w.extractLsb' 9 3 ++ w.extractLsb' 6 3 ++ w.extractLsb' 0 6 : Word) = w := by
  rw [extract_append w 9 4 3, extract_append w 6 7 3]
  exact (extract_append w 0 10 6).trans (extract_all w)

theorem threeReg_pieces :
    (w.extractLsb' 12 4 ++ w.extractLsb' 9 3 ++ w.extractLsb' 6 3 ++ w.extractLsb' 3 3 ++ w.extractLsb' 0 3 : Word) =
      w := by
  rw [extract_append w 9 4 3, extract_append w 6 7 3, extract_append w 3 10 3]
  exact (extract_append w 0 13 3).trans (extract_all w)

theorem regImm_pieces :
    (w.extractLsb' 12 4 ++ w.extractLsb' 9 3 ++ w.extractLsb' 6 3 ++ w.extractLsb' 5 1 ++ w.extractLsb' 0 5 : Word) =
      w := by
  rw [extract_append w 9 4 3, extract_append w 6 7 3, extract_append w 5 10 1]
  exact (extract_append w 0 11 5).trans (extract_all w)

theorem longOff_pieces : (w.extractLsb' 12 4 ++ w.extractLsb' 11 1 ++ w.extractLsb' 0 11 : Word) = w := by
  rw [extract_append w 11 4 1]
  exact (extract_append w 0 5 11).trans (extract_all w)

theorem vector_pieces : (w.extractLsb' 12 4 ++ w.extractLsb' 8 4 ++ w.extractLsb' 0 8 : Word) = w := by
  rw [extract_append w 8 4 4]
  exact (extract_append w 0 8 8).trans (extract_all w)

end pieces

/-- A clear selector bit above two clear bits. -/
theorem clear_of_selector {w : Word} {a : Nat} (hsel : w.getLsbD (a + 2) = false)
    (hfixed : w.extractLsb' a 2 = 0#2) : w.extractLsb' a 3 = 0#3 := by
  rw [← extract_append w a 1 2, extract_bit, hsel, hfixed]
  rfl

/-- The instruction a canonical word selects has that word: every piece of the word is an operand or a fixed value. -/
theorem encode_dispatch (p : Params) {w : Word} (hc : canonical w = true) (hr : ¬reservedOpcode w) :
    encode p (dispatch p (fieldsOf w)) = w := by
  simp only [canonical] at hc
  cases ho : (fieldsOf w).opcode using opcode_cases
  case rti => exact absurd (.inl ho) hr
  case reserved => exact absurd (.inr ho) hr
  case br | ld | st | ldi | sti | lea =>
    simp only [dispatch, ho, encode]
    rw [← ho]
    exact regOff_pieces w
  case ldr | str =>
    simp only [dispatch, ho, encode]
    rw [← ho]
    exact regReg_pieces w
  case not =>
    simp only [ho, beq_iff_eq] at hc
    simp only [dispatch, ho, encode]
    rw [← ho, ← hc]
    exact regReg_pieces w
  case add | and =>
    cases hsel : (fieldsOf w).immSel with
    | true =>
      have hmode : w.extractLsb' 5 1 = 1#1 := (extract_bit w 5).trans (congrArg _ hsel)
      simp only [dispatch, ho, hsel, if_true, encode]
      rw [← ho, ← hmode]
      exact regImm_pieces w
    | false =>
      simp only [ho, hsel, Bool.false_or, beq_iff_eq] at hc
      simp only [dispatch, ho, hsel, Bool.false_eq_true, if_false, encode]
      rw [← ho, ← clear_of_selector (a := 3) hsel hc]
      exact threeReg_pieces w
  case jsr =>
    cases hsel : (fieldsOf w).longSel with
    | true =>
      have hmode : w.extractLsb' 11 1 = 1#1 := (extract_bit w 11).trans (congrArg _ hsel)
      simp only [dispatch, ho, hsel, if_true]
      change 4#4 ++ 1#1 ++ (fieldsOf w).off11 = w
      rw [← ho, ← hmode]
      exact longOff_pieces w
    | false =>
      simp only [ho, hsel, Bool.false_or, Bool.and_eq_true, beq_iff_eq] at hc
      obtain ⟨hmid, hlow⟩ := hc
      simp only [dispatch, ho, hsel, Bool.false_eq_true, if_false]
      change 4#4 ++ 0#3 ++ (fieldsOf w).r1 ++ 0#6 = w
      rw [← ho, ← clear_of_selector (a := 9) hsel hmid, ← hlow]
      exact regReg_pieces w
  case jmp =>
    simp only [ho, Bool.and_eq_true, beq_iff_eq] at hc
    obtain ⟨hmid, hlow⟩ := hc
    simp only [dispatch, ho, encode_jump]
    rw [← ho, ← hmid, ← hlow]
    exact regReg_pieces w
  case trap =>
    simp only [ho] at hc
    have hmid : w.extractLsb' 8 4 = 0#4 := by simpa using hc
    rw [dispatch_trap p ho, encode_decodeTrap, ← ho, ← hmid]
    exact vector_pieces w

/-- Settles O2: what the decoder answers is what the dispatch selects, and that has the word. -/
theorem encodeOfDecodeIsIdentity : Obligations.EncodeOfDecodeIsIdentity := by
  intro p w i hc hr hd
  obtain ⟨-, rfl⟩ := (decode_eq_ok_iff p w i).mp hd
  exact encode_dispatch p hc hr

/-! ### Fixed bits under a mask (R104, R108) -/

/-- Words that agree under a mask agree in every field the mask covers. -/
theorem extract_congr {w v m : Word} {a n : Nat} (hm : m.extractLsb' a n = BitVec.allOnes n)
    (h : w &&& m = v &&& m) : w.extractLsb' a n = v.extractLsb' a n := by
  have hmask : ∀ x : Word, (x &&& m).extractLsb' a n = x.extractLsb' a n := fun x => by
    rw [BitVec.extractLsb'_and, hm, BitVec.and_allOnes]
  rw [← hmask w, h, hmask v]

/-- A word under a field's mask is the field, put back at its offset. -/
theorem and_fieldMask (f : FieldDesc) (w : Word) :
    w &&& fieldMask f = (w.extractLsb' f.offset f.width).zeroExtend 16 <<< f.offset := by
  apply BitVec.eq_of_getLsbD_eq
  intro k hk
  rw [BitVec.getLsbD_and, fieldMask, BitVec.getLsbD_ofNat, Nat.testBit_mul_two_pow, Nat.testBit_two_pow_sub_one,
    BitVec.getLsbD_shiftLeft, BitVec.zeroExtend_eq_setWidth, BitVec.getLsbD_setWidth, BitVec.getLsbD_extractLsb']
  by_cases hle : f.offset ≤ k
  · have hin : k - f.offset < 16 := Nat.lt_of_le_of_lt (Nat.sub_le ..) hk
    simp only [hk, hle, hin, Nat.not_lt.mpr hle, Nat.add_sub_cancel' hle, decide_true, decide_false, Bool.not_false,
      Bool.true_and, Bool.and_comm]
  · simp only [hle, Nat.lt_of_not_le hle, decide_true, decide_false, Bool.not_true, Bool.false_and, Bool.and_false]

theorem and_fieldMask_eq_iff {f : FieldDesc}
    (hm : (fieldMask f).extractLsb' f.offset f.width = BitVec.allOnes f.width) (w v : Word) :
    w &&& fieldMask f = v &&& fieldMask f ↔ w.extractLsb' f.offset f.width = v.extractLsb' f.offset f.width :=
  ⟨extract_congr hm, fun h => by rw [and_fieldMask, and_fieldMask, h]⟩

theorem and_fieldMask_eq_zero_iff {f : FieldDesc}
    (hm : (fieldMask f).extractLsb' f.offset f.width = BitVec.allOnes f.width) (w : Word) :
    w &&& fieldMask f = 0#16 ↔ w.extractLsb' f.offset f.width = 0#f.width := by
  simpa using and_fieldMask_eq_iff hm w 0#16

/-- Two fields are zero exactly when the word under both their masks is. -/
theorem and_fieldMasks_eq_zero_iff {f g : FieldDesc}
    (hf : (fieldMask f).extractLsb' f.offset f.width = BitVec.allOnes f.width)
    (hg : (fieldMask g).extractLsb' g.offset g.width = BitVec.allOnes g.width) (w : Word) :
    w &&& (fieldMask f ||| fieldMask g) = 0#16 ↔
      w.extractLsb' f.offset f.width = 0#f.width ∧ w.extractLsb' g.offset g.width = 0#g.width := by
  rw [BitVec.and_or_distrib_left, BitVec.or_eq_zero_iff, and_fieldMask_eq_zero_iff hf, and_fieldMask_eq_zero_iff hg]

/-- The model's check of a word's fixed bits is the comparison under the mask of the bits that no rule reads. -/
theorem canonical_iff (w : Word) :
    canonical w = true ↔ reservedOpcode w ∨ w &&& ignoredBits w = fixedValues w := by
  have hoperate : w &&& 0x0018#16 = 0#16 ↔ w.extractLsb' 3 2 = 0#2 :=
    and_fieldMask_eq_zero_iff (f := { width := 2, offset := 3 }) (by decide) w
  have hjsrr : w &&& 0x063F#16 = 0#16 ↔ w.extractLsb' 9 2 = 0#2 ∧ w.extractLsb' 0 6 = 0#6 :=
    and_fieldMasks_eq_zero_iff (f := { width := 2, offset := 9 }) (g := FieldName.ones6.desc) (by decide)
      (by decide) w
  have hnot : w &&& 0x003F#16 = 0x003F#16 ↔ w.extractLsb' 0 6 = 0x3F#6 :=
    and_fieldMask_eq_iff (f := FieldName.ones6.desc) (by decide) w 0x003F#16
  have hjmp : w &&& 0x0E3F#16 = 0#16 ↔ w.extractLsb' 9 3 = 0#3 ∧ w.extractLsb' 0 6 = 0#6 :=
    and_fieldMasks_eq_zero_iff (f := FieldName.r0.desc) (g := FieldName.ones6.desc) (by decide) (by decide) w
  have htrap : w &&& 0x0F00#16 = 0#16 ↔ w.extractLsb' 8 4 = 0#4 :=
    and_fieldMask_eq_zero_iff (f := { width := 4, offset := 8 }) (by decide) w
  simp only [canonical, ignoredBits, fixedValues, reservedOpcode]
  cases (fieldsOf w).opcode using opcode_cases
  case br | ld | st | ldi | sti | lea | ldr | str | rti | reserved => simp
  case add | and => by_cases hsel : w[5] = true <;> simp [fieldsOf, hsel, hoperate]
  case jsr => by_cases hsel : w[11] = true <;> simp [fieldsOf, hsel, hjsrr]
  case not => simp [fieldsOf, hnot]
  case jmp => simp [fieldsOf, hjmp]
  case trap => simp [htrap]

/-- Settles O8: the strict decoder rejects the words that are not canonical. -/
theorem strictDecoderRejectsExactlyTheNonCanonical : Obligations.StrictDecoderRejectsExactlyTheNonCanonical := by
  intro p w hstrict
  rw [decode_eq_error_iff, ← Bool.not_eq_true, canonical_iff, not_or]
  exact and_iff_right hstrict

theorem opcode_not_ignored (w : Word) : (~~~ignoredBits w).extractLsb' 12 4 = BitVec.allOnes 4 := by
  unfold ignoredBits
  split
  case h_1 | h_2 | h_3 => split <;> decide
  all_goals decide

/-- The dispatch reads none of the ignored bits: each opcode's handler is selected by fields that lie outside them. -/
theorem dispatch_congr (p : Params) {w v : Word} (h : w &&& ~~~ignoredBits w = v &&& ~~~ignoredBits w) :
    dispatch p (fieldsOf w) = dispatch p (fieldsOf v) := by
  have hfield : ∀ a n, (~~~ignoredBits w).extractLsb' a n = BitVec.allOnes n →
      v.extractLsb' a n = w.extractLsb' a n := fun a n hm => (extract_congr hm h).symm
  have hbit : ∀ a, (~~~ignoredBits w).extractLsb' a 1 = BitVec.allOnes 1 → v.getLsbD a = w.getLsbD a := by
    intro a hm
    rw [getLsbD_extract v, hfield a 1 hm, ← getLsbD_extract w]
  have hsame : ignoredBits w = 0#16 → w = v := fun h0 => by
    rwa [h0, BitVec.not_zero, BitVec.and_allOnes, BitVec.and_allOnes] at h
  have hop : (fieldsOf v).opcode = (fieldsOf w).opcode := hfield 12 4 (opcode_not_ignored w)
  cases ho : (fieldsOf w).opcode using opcode_cases
  case br | ld | st | ldr | str | ldi | sti | lea => rw [hsame (by simp [ignoredBits, ho])]
  case rti | reserved => simp only [dispatch, hop, ho]
  case add | and =>
    cases hsel : w.getLsbD 5 with
    | true => rw [hsame (by simp only [ignoredBits, ho, hsel, if_true])]
    | false =>
      have hi : ignoredBits w = 0x0018#16 := by simp only [ignoredBits, ho, hsel, Bool.false_eq_true, if_false]
      rw [hi] at hfield hbit
      simp only [dispatch, hop, ho]
      simp only [fieldsOf, hbit 5 (by decide), hsel, hfield 9 3 (by decide), hfield 6 3 (by decide),
        hfield 0 3 (by decide), Bool.false_eq_true, if_false]
  case jsr =>
    cases hsel : w.getLsbD 11 with
    | true => rw [hsame (by simp only [ignoredBits, ho, hsel, if_true])]
    | false =>
      have hi : ignoredBits w = 0x063F#16 := by simp only [ignoredBits, ho, hsel, Bool.false_eq_true, if_false]
      rw [hi] at hfield hbit
      simp only [dispatch, hop, ho]
      simp only [fieldsOf, hbit 11 (by decide), hsel, hfield 6 3 (by decide), Bool.false_eq_true, if_false]
  case not =>
    have hi : ignoredBits w = 0x003F#16 := by simp only [ignoredBits, ho]
    rw [hi] at hfield
    simp only [dispatch, hop, ho]
    simp only [fieldsOf, hfield 9 3 (by decide), hfield 6 3 (by decide)]
  case jmp =>
    have hi : ignoredBits w = 0x0E3F#16 := by simp only [ignoredBits, ho]
    have hbase : (fieldsOf v).r1 = (fieldsOf w).r1 := hfield 6 3 (by rw [hi]; decide)
    simp only [dispatch, hop, ho, hbase]
  case trap =>
    have hi : ignoredBits w = 0x0F00#16 := by simp only [ignoredBits, ho]
    have hvect : (fieldsOf v).trapvect8 = (fieldsOf w).trapvect8 := hfield 0 8 (by rw [hi]; decide)
    rw [dispatch_trap p ho, dispatch_trap p (hop.trans ho), hvect]

/-- Settles O7: without the strict check the decoder answers what the dispatch selects, which no ignored bit changes. -/
theorem ignoredBitsDoNotChangeDecoding : Obligations.IgnoredBitsDoNotChangeDecoding := by
  intro p w v hlax h
  rw [decode_lax hlax, decode_lax hlax, dispatch_congr p h]

/-! ### Fields accumulated in declared order (R105, R110) -/

theorem truncate_ofInt {n : Nat} (hn : n ≤ 16) (v : Int) : (BitVec.ofInt 16 v).truncate n = BitVec.ofInt n v := by
  have hdvd : ((2 ^ n : Nat) : Int) ∣ ((2 ^ 16 : Nat) : Int) := Int.natCast_dvd_natCast.mpr (Nat.pow_dvd_pow 2 hn)
  apply BitVec.eq_of_toNat_eq
  rw [BitVec.truncate, BitVec.toNat_setWidth, BitVec.toNat_ofInt, BitVec.toNat_ofInt, ← Int.emod_emod_of_dvd v hdvd,
    Int.toNat_emod (Int.emod_nonneg v (by decide)) (Int.natCast_nonneg _)]
  rfl

/-- A value masked to a width is the value at that width, with zeros above it. -/
theorem ofInt_and_mask {n : Nat} (hn : n ≤ 16) (v : Int) :
    BitVec.ofInt 16 v &&& BitVec.ofNat 16 (2 ^ n - 1) = (BitVec.ofInt n v).zeroExtend 16 := by
  have hlow := zeroExtend_extract (BitVec.ofInt 16 v) 0 n
  rw [BitVec.ushiftRight_zero] at hlow
  rw [← hlow, ← BitVec.setWidth_eq_extractLsb' hn, ← truncate_ofInt hn]

/-- The bits a supplied value puts into a word: the value at its field's width, at the field's offset. -/
def placed (n : FieldName) (v : Int) : Word :=
  (BitVec.ofInt n.desc.width v).zeroExtend 16 <<< n.desc.offset

theorem placeField_of_lookup {vals : FieldValues} {n : FieldName} {v : Int} (h : vals.lookup n = some v) (w : Word) :
    placeField vals w n = w ||| placed n v := by
  have hwidth : n.desc.width ≤ 16 := by cases n <;> decide
  rw [placeField, h, placed, ← ofInt_and_mask hwidth]

theorem placeField_nil (w : Word) (n : FieldName) : placeField [] w n = w := rfl

theorem placeField_cons_self (vals : FieldValues) (w : Word) (n : FieldName) (v : Int) :
    placeField ((n, v) :: vals) w n = w ||| placed n v :=
  placeField_of_lookup List.lookup_cons_self w

theorem placeField_cons_other (vals : FieldValues) (w : Word) {n m : FieldName} (v : Int) (h : m ≠ n) :
    placeField ((n, v) :: vals) w m = placeField vals w m := by
  have hlookup : List.lookup m ((n, v) :: vals) = List.lookup m vals := by rw [List.lookup_cons, beq_false_of_ne h]
  rw [placeField, placeField, hlookup]

section formats
variable (o : BitVec 4) (r q t : BitVec 3)

theorem regOff_eq_or (x : BitVec 9) :
    (o ++ r ++ x : Word) = r.zeroExtend 16 <<< 9 ||| x.zeroExtend 16 ||| o.zeroExtend 16 <<< 12 := by
  refine ((BitVec.setWidth_eq _).symm.trans BitVec.setWidth_append_append_eq_shiftLeft_setWidth_or).trans ?_
  rw [BitVec.or_assoc, BitVec.or_comm]

theorem regReg_eq_or (x : BitVec 6) :
    (o ++ r ++ q ++ x : Word) =
      r.zeroExtend 16 <<< 9 ||| q.zeroExtend 16 <<< 6 ||| x.zeroExtend 16 ||| o.zeroExtend 16 <<< 12 := by
  refine ((BitVec.setWidth_eq _).symm.trans BitVec.setWidth_append_append_append_eq_shiftLeft_setWidth_or).trans ?_
  rw [BitVec.or_assoc, BitVec.or_assoc, BitVec.or_comm, ← BitVec.or_assoc]

theorem threeReg_eq_or :
    (o ++ r ++ q ++ 0#3 ++ t : Word) =
      r.zeroExtend 16 <<< 9 ||| q.zeroExtend 16 <<< 6 ||| t.zeroExtend 16 ||| o.zeroExtend 16 <<< 12 := by
  have hassoc : (o ++ r ++ q ++ 0#3 ++ t : Word) = o ++ r ++ q ++ (0#3 ++ t : BitVec 6) := BitVec.append_assoc
  have hlow : (0#3 ++ t : BitVec 6).zeroExtend 16 = t.zeroExtend 16 :=
    BitVec.setWidth_append_eq_shiftLeft_setWidth_or.trans BitVec.zero_or
  rw [hassoc, regReg_eq_or, hlow]

theorem regImm_eq_or (x : BitVec 5) :
    (o ++ r ++ q ++ 1#1 ++ x : Word) =
      r.zeroExtend 16 <<< 9 ||| q.zeroExtend 16 <<< 6 ||| (1#1).zeroExtend 16 <<< 5 ||| x.zeroExtend 16 |||
        o.zeroExtend 16 <<< 12 := by
  have hassoc : (o ++ r ++ q ++ 1#1 ++ x : Word) = o ++ r ++ q ++ (1#1 ++ x : BitVec 6) := BitVec.append_assoc
  have hlow : (1#1 ++ x : BitVec 6).zeroExtend 16 = (1#1).zeroExtend 16 <<< 5 ||| x.zeroExtend 16 :=
    BitVec.setWidth_append_eq_shiftLeft_setWidth_or
  rw [hassoc, regReg_eq_or, hlow, ← BitVec.or_assoc]

theorem longOff_eq_or (z : BitVec 1) (x : BitVec 11) :
    (o ++ z ++ x : Word) = z.zeroExtend 16 <<< 11 ||| x.zeroExtend 16 ||| o.zeroExtend 16 <<< 12 := by
  refine ((BitVec.setWidth_eq _).symm.trans BitVec.setWidth_append_append_eq_shiftLeft_setWidth_or).trans ?_
  rw [BitVec.or_assoc, BitVec.or_comm]

theorem baseOnly_eq_or : (o ++ 0#3 ++ r ++ 0#6 : Word) = r.zeroExtend 16 <<< 6 ||| o.zeroExtend 16 <<< 12 := by
  simp [regReg_eq_or]

theorem vector_eq_or (x : BitVec 8) : (o ++ 0#4 ++ x : Word) = x.zeroExtend 16 ||| o.zeroExtend 16 <<< 12 := by
  refine ((BitVec.setWidth_eq _).symm.trans BitVec.setWidth_append_append_eq_shiftLeft_setWidth_or).trans ?_
  simp [BitVec.or_comm]

end formats

/-- The word of a format is its supplied fields, ORed in declared order, and then the opcode. -/
theorem encode_eq_encodeFields (p : Params) (i : Instr) :
    encode p i = encodeFields (opcodeOf i) (fieldValues p i) := by
  cases i <;> simp only [encodeFields, opcodeOf, fieldValues, layout, List.foldl, placeField_nil, placeField_cons_self,
    placeField_cons_other, ne_eq, reduceCtorEq, not_false_eq_true, placed, FieldName.desc, BitVec.ofNat_eq_ofNat,
    BitVec.ofInt_natCast, BitVec.ofNat_toNat, BitVec.setWidth_eq, BitVec.ofInt_toInt, BitVec.shiftLeft_zero,
    BitVec.zero_or]
  case br | ld | st | ldi | sti | lea => exact regOff_eq_or ..
  case ldr | str | not => exact regReg_eq_or ..
  case addReg | andReg => exact threeReg_eq_or ..
  case addImm | andImm => exact regImm_eq_or ..
  case jsr off => exact longOff_eq_or 4#4 1#1 off
  case jsrr b => exact (baseOnly_eq_or 4#4 b).trans (by simp)
  case jmp b => exact baseOnly_eq_or 12#4 b
  case trap | getc | out | puts | putsp | halt => exact vector_eq_or 15#4 _
  case rti | reserved | ret => rfl

theorem foldl_placeField_cons_other (vals : FieldValues) {n : FieldName} (v : Int) {names : List FieldName}
    (h : n ∉ names) (w : Word) : names.foldl (placeField ((n, v) :: vals)) w = names.foldl (placeField vals) w := by
  induction names generalizing w with
  | nil => rfl
  | cons m names ih =>
    obtain ⟨hm, hrest⟩ := not_or.mp (mt List.mem_cons.mpr h)
    rw [List.foldl_cons, List.foldl_cons, placeField_cons_other vals w v (Ne.symm hm), ih hrest]

theorem encodeFields_cons_other {op : BitVec 4} (vals : FieldValues) {n : FieldName} (v : Int) (h : n ∉ layout op) :
    encodeFields op ((n, v) :: vals) = encodeFields op vals := by
  rw [encodeFields, foldl_placeField_cons_other vals v h, encodeFields]

/-- No field of R101 reaches the opcode's bits. -/
theorem placed_top (n : FieldName) (v : Int) : (placed n v).extractLsb' 12 4 = 0#4 := by
  have hend : n.desc.offset + n.desc.width ≤ 12 := by cases n <;> decide
  ext k hk
  have habove : (BitVec.ofInt n.desc.width v).getLsbD (12 + k - n.desc.offset) = false :=
    BitVec.getLsbD_of_ge _ _ (by omega)
  simp [placed, habove]

theorem placeField_top (vals : FieldValues) (w : Word) (n : FieldName) :
    (placeField vals w n).extractLsb' 12 4 = w.extractLsb' 12 4 := by
  cases h : vals.lookup n with
  | none => rw [placeField, h]
  | some v => rw [placeField_of_lookup h, BitVec.extractLsb'_or, placed_top, BitVec.or_zero]

theorem foldl_placeField_top (vals : FieldValues) (names : List FieldName) (w : Word) :
    (names.foldl (placeField vals) w).extractLsb' 12 4 = w.extractLsb' 12 4 := by
  induction names generalizing w with
  | nil => rfl
  | cons n names ih => exact (ih _).trans (placeField_top vals w n)

theorem encodeFields_opcode (op : BitVec 4) (vals : FieldValues) :
    (encodeFields op vals).extractLsb' 12 4 = op := by
  have hop : (op.zeroExtend 16 <<< 12).extractLsb' 12 4 = op := by
    revert op
    decide
  rw [encodeFields, BitVec.extractLsb'_or, foldl_placeField_top, hop]
  exact BitVec.zero_or

/-- Settles O3: format by format, then by the fold over the layout. -/
theorem encodeAccumulatesTheFields : Obligations.EncodeAccumulatesTheFields :=
  ⟨encode_eq_encodeFields, fun _ vals _ v h => encodeFields_cons_other vals v h, encodeFields_opcode⟩

/-! ### The assembler's offsets (R134) -/

/-- A word within a field's signed range survives the truncation to the field and the extension back. -/
theorem sext_truncate {n : Nat} (hpos : 0 < n) (hn : n ≤ 16) {d : Word} (hlo : -2 ^ (n - 1) ≤ d.toInt)
    (hhi : d.toInt < 2 ^ (n - 1)) : sext (d.truncate n) = d := by
  have hcut : d.truncate n = BitVec.ofInt n d.toInt := by rw [← truncate_ofInt hn, BitVec.ofInt_toInt]
  apply BitVec.eq_of_toInt_eq
  rw [Scope.toInt_sext _ hn, hcut, BitVec.toInt_ofInt_eq_self hpos hlo hhi]

theorem add_distance (a target : Word) : a + (target - a) = target := by
  rw [BitVec.add_comm, BitVec.sub_add_cancel]

section labels
variable {syms : Symbols} {name : String} {target : Word} (line : Nat) (a : Word)
  (ht : syms.lookup name = some (.address target))
include ht

theorem asDistance_label : asDistance syms line a (.name name) = .ok (target - (a + 1)) := by
  simp only [asDistance, ht]

theorem pcRelInstr_label (form : RegIdx → BitVec 9 → Instr) {regName : String} {r : RegIdx}
    (hr : syms.lookup regName = some (.register r)) :
    pcRelInstr form syms line a (.name regName) (.name name) = .ok (form r ((target - (a + 1)).truncate 9)) := by
  have hreg : asReg syms line (.name regName) = .ok r := by simp only [asReg, hr]
  rw [pcRelInstr, hreg, asDistance_label line a ht]
  rfl

theorem asmInstr_br_label (nzp : Cond) :
    asmInstr syms line a (.br nzp) [.name name] = .ok (.br nzp ((target - (a + 1)).truncate 9)) := by
  rw [asmInstr, asDistance_label line a ht]
  rfl

theorem asmInstr_jsr_label :
    asmInstr syms line a .jsr [.name name] = .ok (.jsr ((target - (a + 1)).truncate 11)) := by
  rw [asmInstr, asDistance_label line a ht]
  rfl

end labels

/-- Settles O33: the offset is the distance cut to the field, which within the field's reach loses nothing. -/
theorem assembledOffsetsReachTheirLabels : Obligations.AssembledOffsetsReachTheirLabels := by
  intro syms line a target name nzp ht
  refine ⟨fun hlo hhi => ⟨_, ?_, asmInstr_br_label line a ht nzp, fun regName r hr => ?_⟩,
    fun hlo hhi => ⟨_, asmInstr_jsr_label line a ht, ?_⟩⟩
  · rw [sext_truncate (by decide) (by decide) hlo (Int.lt_add_one_of_le hhi)]
    exact add_distance _ _
  · have hform := fun form => pcRelInstr_label line a ht form hr
    exact ⟨hform .ld, hform .ldi, hform .lea, hform .st, hform .sti⟩
  · rw [sext_truncate (by decide) (by decide) hlo (Int.lt_add_one_of_le hhi)]
    exact add_distance _ _

/-! ### The spec's words, and the step (R108, R120) -/

/-- Settles O9, by decoding each of the words. -/
theorem specWordsDecode : Obligations.SpecWordsDecode := by
  unfold Obligations.SpecWordsDecode
  decide

/-- Settles O11: the step is the cycle's fetch and dispatch, and the fetch is a read and an increment of PC. -/
theorem stepRunsTheDecodedInstruction : Obligations.StepRunsTheDecodedInstruction := by
  intro s i hr hw hi
  have hrun : runInstr s = exec i (fetch s).2 := by
    rw [Fetches] at hi
    simp only [runInstr, hi]
  have hregs : RegsKept s (fetch s).2 := fun r => State.reg_afterRead s s.pc r
  have hrest : RestKept s (fetch s).2 := by simp [RestKept]
  exact ⟨(step_running hr hw).trans hrun, rfl, rfl, hregs, State.afterRead_cond s s.pc, fun _ => rfl, ⟨rfl, rfl⟩,
    hrest⟩

/-- Settles O12: the decoder's error becomes the fault, at the address the fetch read. -/
theorem strictStepFaultsOnNonCanonicalWords : Obligations.StrictStepFaultsOnNonCanonicalWords := by
  intro s hr hw hstrict hc
  have hd : decode s.params (fetch s).1 = .error .nonCanonicalEncoding :=
    (decode_eq_error_iff ..).mpr ⟨hstrict, hc⟩
  rw [step_running hr hw]
  simp only [runInstr, hd, ArchState.instrAddr_fetch]
  rfl

end Sys2Proof.Proofs.Encoding
end

section
/-! PROOFS. The family of spec/40_operate.md: ADD, AND and NOT (R160 to R166). Each is one result of the ALU written
back, so what a written-back result changes and leaves alone is said once. -/

namespace Sys2Proof.Proofs.Operate

open Machine Claims

/-! ### A result written back (R28, R29) -/

/-- `t` is `s` with the value `v` in register `d` and the flags of `v` in COND, and with nothing else changed. -/
def ResultIn (d : RegIdx) (v : Word) (s t : State) : Prop :=
  t.reg d = v ∧ FlagsShow v t.cond ∧ t.pc = s.pc ∧ RegsKeptBut d s t ∧ Quiet s t

theorem reg_writeBack_same (d : RegIdx) (v : Word) (s : State) : (writeBack d v s).reg d = v := by
  rw [reg_writeBack, if_pos rfl]

theorem flagsShow_writeBack (d : RegIdx) (v : Word) (s : State) : FlagsShow v (writeBack d v s).cond :=
  (ArchState.setccShowsTheSign (s.setReg d v) v).1

theorem regsKeptBut_writeBack (d : RegIdx) (v : Word) (s : State) : RegsKeptBut d s (writeBack d v s) :=
  fun r hr => by rw [reg_writeBack, if_neg hr]

theorem quiet_writeBack (d : RegIdx) (v : Word) (s : State) : Quiet s (writeBack d v s) :=
  ⟨fun c => cell_writeBack d v c s, ⟨rfl, rfl⟩, rfl, rfl, rfl, rfl, rfl, rfl⟩

theorem resultIn_writeBack (d : RegIdx) (v : Word) (s : State) : ResultIn d v s (writeBack d v s) :=
  ⟨reg_writeBack_same d v s, flagsShow_writeBack d v s, rfl, regsKeptBut_writeBack d v s, quiet_writeBack d v s⟩

/-! ### The operate instructions (R162 to R166): the sources are read in the state before the write -/

section operate
variable (d a b : RegIdx) (imm : BitVec 5) (s : State)

theorem exec_addReg : exec (.addReg d a b) s = .next (writeBack d (s.reg a + s.reg b) s) := rfl

theorem exec_addImm : exec (.addImm d a imm) s = .next (writeBack d (s.reg a + sext imm) s) := rfl

theorem exec_andReg : exec (.andReg d a b) s = .next (writeBack d (s.reg a &&& s.reg b) s) := rfl

theorem exec_andImm : exec (.andImm d a imm) s = .next (writeBack d (s.reg a &&& sext imm) s) := rfl

theorem exec_not : exec (.not d a) s = .next (writeBack d (~~~s.reg a) s) := rfl

end operate

/-- Settles O34: in either mode ADD writes the sum back. -/
theorem addResult : Obligations.AddResult :=
  ⟨fun d a b s => ⟨_, exec_addReg d a b s, resultIn_writeBack d _ s⟩,
    fun d a imm s => ⟨_, exec_addImm d a imm s, resultIn_writeBack d _ s⟩⟩

/-- Settles O35: in either mode AND writes the bitwise product back. -/
theorem andResult : Obligations.AndResult :=
  ⟨fun d a b s => ⟨_, exec_andReg d a b s, resultIn_writeBack d _ s⟩,
    fun d a imm s => ⟨_, exec_andImm d a imm s, resultIn_writeBack d _ s⟩⟩

/-- Settles O36: NOT writes the complement back. -/
theorem notResult : Obligations.NotResult :=
  fun d a s => ⟨_, exec_not d a s, resultIn_writeBack d _ s⟩

end Sys2Proof.Proofs.Operate
end

section
/-! PROOFS. The family of spec/41_control.md: BR, JMP, RET, JSR and JSRR (R180 to R185). Each is a move of PC, JSR and
JSRR after a link in R7, so what the move and the link leave alone is said once. -/

namespace Sys2Proof.Proofs.Control

open Machine Claims

/-! ### PC moved (R26), and PC moved with a link in R7 (R23) -/

theorem quiet_refl (s : State) : Quiet s s :=
  ⟨fun _ => rfl, ⟨rfl, rfl⟩, rfl, rfl, rfl, rfl, rfl, rfl⟩

theorem quiet_setPc (target : Word) (s : State) : Quiet s (s.setPc target) := quiet_refl s

theorem quiet_setReg (d : RegIdx) (v : Word) (s : State) : Quiet s (s.setReg d v) := quiet_refl s

theorem regsKept_setPc (target : Word) (s : State) : RegsKept s (s.setPc target) := State.reg_setPc s target

theorem regsKeptBut_setReg (d : RegIdx) (v : Word) (s : State) : RegsKeptBut d s (s.setReg d v) :=
  fun r hr => by rw [State.reg_setReg, if_neg hr]

/-- `s` with its PC linked in R7 and PC at the target. -/
def linkTo (target : Word) (s : State) : State :=
  (s.setReg linkReg s.pc).setPc target

/-- `t` is `s` with its PC linked in R7 and PC at the target, and with nothing else changed. -/
def LinkedTo (target : Word) (s t : State) : Prop :=
  t.reg 7#3 = s.pc ∧ t.pc = target ∧ t.cond = s.cond ∧ RegsKeptBut 7#3 s t ∧ Quiet s t

theorem linkedTo_linkTo (target : Word) (s : State) : LinkedTo target s (linkTo target s) :=
  ⟨State.reg_setReg_same s linkReg s.pc, rfl, rfl, regsKeptBut_setReg linkReg s.pc s, quiet_setReg linkReg s.pc s⟩

/-! ### BR (R181): the mask against COND -/

/-- No bit in common, bit by bit. -/
theorem and_eq_zero_iff {w : Nat} (a b : BitVec w) :
    a &&& b = 0#w ↔ ∀ k, k < w → a.getLsbD k = true → b.getLsbD k = false := by
  simp [BitVec.eq_of_getLsbD_eq_iff]

/-- A bit in common. -/
theorem and_ne_zero_iff {w : Nat} (a b : BitVec w) :
    a &&& b ≠ 0#w ↔ ∃ k, k < w ∧ a.getLsbD k = true ∧ b.getLsbD k = true := by
  simp [and_eq_zero_iff]

section branch
variable {nzp : Cond} (off : BitVec 9) {s : State}

theorem exec_br_taken (h : nzp &&& s.cond ≠ 0#3) :
    exec (.br nzp off) s = .next (s.setPc (s.pc + sext off)) := if_pos h

theorem exec_br_untaken (h : nzp &&& s.cond = 0#3) : exec (.br nzp off) s = .next s :=
  if_neg (not_not_intro h)

end branch

/-- Settles O37: by whether mask and COND have a bit in common; either way the other clause has a false premise. -/
theorem branchResult : Obligations.BranchResult := by
  intro nzp off s
  rw [← and_ne_zero_iff, ← and_eq_zero_iff]
  by_cases h : nzp &&& s.cond = 0#3
  · exact ⟨s, exec_br_untaken off h, fun hne => absurd h hne, fun _ => rfl, rfl, fun _ => rfl, quiet_refl s⟩
  · exact ⟨_, exec_br_taken off h, fun _ => rfl, fun hz => absurd hz h, rfl, regsKept_setPc _ s, quiet_setPc _ s⟩

/-! ### JMP and RET (R182, R183) -/

theorem exec_jmp (b : RegIdx) (s : State) : exec (.jmp b) s = .next (s.setPc (s.reg b)) := rfl

theorem exec_ret (s : State) : exec .ret s = exec (.jmp 7#3) s := rfl

/-- Settles O38: JMP by its meaning, and RET as the JMP it is. -/
theorem jumpResult : Obligations.JumpResult :=
  ⟨exec_jmp, fun s => ⟨(exec_ret s).trans (exec_jmp 7#3 s), exec_ret s⟩⟩

/-! ### JSR and JSRR (R184, R185) -/

theorem exec_jsr (off : BitVec 11) (s : State) : exec (.jsr off) s = .next (linkTo (s.pc + sext off) s) := rfl

/-- Where JSRR goes: its base register, but with base R7 and the link written first, the link. -/
def jsrrTarget (b : RegIdx) (s : State) : Word :=
  if b = 7#3 ∧ s.params.jsrrLinkFirst = true then s.pc else s.reg b

/-- The base read in either order of link and read (R185): only R7 shows which came first. -/
theorem jsrrTarget_eq (b : RegIdx) (s : State) :
    (if s.params.jsrrLinkFirst then (s.setReg linkReg s.pc).reg b else s.reg b) = jsrrTarget b s := by
  unfold jsrrTarget
  by_cases hfirst : s.params.jsrrLinkFirst = true
  · rw [if_pos hfirst, State.reg_setReg]
    by_cases hb : b = linkReg
    · rw [if_pos hb, if_pos ⟨hb, hfirst⟩]
    · rw [if_neg hb, if_neg fun h => hb h.1]
  · rw [if_neg hfirst, if_neg fun h => hfirst h.2]

theorem exec_jsrr (b : RegIdx) (s : State) : exec (.jsrr b) s = .next (linkTo (jsrrTarget b s) s) := by
  rw [← jsrrTarget_eq]
  rfl

/-- Settles O39: the offset is taken from the PC that is linked. -/
theorem jsrResult : Obligations.JsrResult :=
  fun off s => ⟨_, exec_jsr off s, linkedTo_linkTo _ s⟩

/-- Settles O40: the order of link and read shows in the target only, and there only with base R7. -/
theorem jsrrResult : Obligations.JsrrResult :=
  fun b s => ⟨_, exec_jsrr b s, linkedTo_linkTo _ s⟩

end Sys2Proof.Proofs.Control
end

section
/-! PROOFS. The family of spec/42_load_store.md: the loads, LEA and the stores (R200 to R207). Each load is a result
written back after its reads, and each store is one cell written after its reads, if it has any; so what reads leave
alone, and what a load and a store do after them, is said once. -/

namespace Sys2Proof.Proofs.LoadStore

open Machine Claims

/-! ### Reads (R63, R67) -/

/-- What reads through the arbiter leave alone: `u` is `s` but for memory and the answers to polls. -/
def KeptByReads (s u : State) : Prop :=
  RegsKept s u ∧ u.pc = s.pc ∧ u.cond = s.cond ∧ RestKept s u

theorem restKept_trans {s t u : State} (h : RestKept s t) (h' : RestKept t u) : RestKept s u := by
  obtain ⟨hcount, hrun, htrace, hwait, hreads, hparams⟩ := h
  obtain ⟨hcount', hrun', htrace', hwait', hreads', hparams'⟩ := h'
  exact ⟨hcount'.trans hcount, hrun'.trans hrun, htrace'.trans htrace, hwait'.trans hwait, hreads'.trans hreads,
    hparams'.trans hparams⟩

theorem KeptByReads.refl (s : State) : KeptByReads s s :=
  ⟨fun _ => rfl, rfl, rfl, rfl, rfl, rfl, rfl, rfl, rfl⟩

theorem KeptByReads.trans {s t u : State} (h : KeptByReads s t) (h' : KeptByReads t u) : KeptByReads s u := by
  obtain ⟨hregs, hpc, hcond, hrest⟩ := h
  obtain ⟨hregs', hpc', hcond', hrest'⟩ := h'
  exact ⟨fun r => (hregs' r).trans (hregs r), hpc'.trans hpc, hcond'.trans hcond, restKept_trans hrest hrest'⟩

theorem keptByReads_memRead (a : Word) (s : State) : KeptByReads s (memRead a s).2 :=
  ⟨State.reg_afterRead s a, State.afterRead_pc s a, State.afterRead_cond s a, MemoryRules.restKept_afterRead s a⟩

/-! ### A load and a store after reads that leave `u` -/

/-- `t` is `s` with the value `v` in register `d` and the flags of `v` in COND, with memory and the answers to polls
as in `u`, and with nothing else changed. -/
def LoadedFrom (u : State) (d : RegIdx) (v : Word) (s t : State) : Prop :=
  t.reg d = v ∧ FlagsShow v t.cond ∧ t.pc = s.pc ∧ RegsKeptBut d s t ∧ CellsKept u t ∧ PollsKept u t ∧ RestKept s t

/-- `t` is `s` with the value `v` in the cell at `ea`, with the other cells and the answers to polls as in `u`, and
with nothing else changed. -/
def StoredOver (u : State) (ea v : Word) (s t : State) : Prop :=
  t.cell ea = v ∧ CellsKeptBut ea u t ∧ t.pc = s.pc ∧ t.cond = s.cond ∧ RegsKept s t ∧ PollsKept u t ∧ RestKept s t

theorem loadedFrom_writeBack {s u : State} (h : KeptByReads s u) (d : RegIdx) (v : Word) :
    LoadedFrom u d v s (writeBack d v u) := by
  obtain ⟨hregs, hpc, -, hrest⟩ := h
  obtain ⟨hd, hflags, hpc', hregs', hcells, hpolls, hrest'⟩ := Operate.resultIn_writeBack d v u
  exact ⟨hd, hflags, hpc'.trans hpc, fun r hr => (hregs' r hr).trans (hregs r), hcells, hpolls,
    restKept_trans hrest hrest'⟩

theorem storedOver_memWrite {s u : State} (h : KeptByReads s u) (ea v : Word) :
    StoredOver u ea v s (memWrite ea v u) := by
  obtain ⟨hregs, hpc, hcond, hrest⟩ := h
  obtain ⟨hcell, hcells, hregs', hpc', hcond', hpolls, hrest'⟩ := MemoryRules.memWriteIsAPlainStore u ea v
  exact ⟨hcell, hcells, hpc'.trans hpc, hcond'.trans hcond, fun r => (hregs' r).trans (hregs r), hpolls,
    restKept_trans hrest hrest'⟩

/-! ### LD, LDI, LEA and LDR (R201, R202, R203, R206) -/

section loads
variable (d b : RegIdx) (off9 : BitVec 9) (off6 : BitVec 6) (s : State)

theorem exec_ld : exec (.ld d off9) s = .next (loadWord d (s.pc + sext off9) s) := rfl

theorem exec_ldi : exec (.ldi d off9) s =
    .next (loadWord d (memRead (s.pc + sext off9) s).1 (memRead (s.pc + sext off9) s).2) := rfl

theorem exec_lea : exec (.lea d off9) s = .next (writeBack d (s.pc + sext off9) s) := rfl

theorem exec_ldr : exec (.ldr d b off6) s = .next (loadWord d (s.reg b + sext off6) s) := rfl

end loads

/-- A load after earlier reads: the word at `ea` in the destination, and memory as its own read leaves it. -/
theorem loadedFrom_loadWord {s u : State} (h : KeptByReads s u) (d : RegIdx) (ea : Word) :
    LoadedFrom (memRead ea u).2 d (memRead ea u).1 s (loadWord d ea u) :=
  loadedFrom_writeBack (h.trans (keptByReads_memRead ea u)) d _

/-- Settles O42: one read, at the PC-relative address. -/
theorem ldResult : Obligations.LdResult :=
  fun d off s => ⟨_, exec_ld d off s, loadedFrom_loadWord (.refl s) d _⟩

/-- Settles O43: the load follows the read of the pointer. -/
theorem ldiResult : Obligations.LdiResult :=
  fun d off s => ⟨_, exec_ldi d off s, loadedFrom_loadWord (keptByReads_memRead _ s) d _⟩

/-- Settles O44: the address is a result written back, and no read comes before it. -/
theorem leaResult : Obligations.LeaResult :=
  fun d off s => ⟨_, exec_lea d off s, Operate.resultIn_writeBack d _ s⟩

/-- Settles O45: one read, at the address the base gives before the destination is written. -/
theorem ldrResult : Obligations.LdrResult :=
  fun d b off s => ⟨_, exec_ldr d b off s, loadedFrom_loadWord (.refl s) d _⟩

/-! ### ST, STI and STR (R204, R205, R207) -/

section stores
variable (r b : RegIdx) (off9 : BitVec 9) (off6 : BitVec 6) (s : State)

theorem exec_st : exec (.st r off9) s = .next (memWrite (s.pc + sext off9) (s.reg r) s) := rfl

/-- The pointer's read leaves the source register alone, so the word stored is the one `s` holds. -/
theorem exec_sti : exec (.sti r off9) s =
    .next (memWrite (memRead (s.pc + sext off9) s).1 (s.reg r) (memRead (s.pc + sext off9) s).2) := by
  rw [← State.reg_afterRead s (s.pc + sext off9) r]
  rfl

theorem exec_str : exec (.str r b off6) s = .next (memWrite (s.reg b + sext off6) (s.reg r) s) := rfl

end stores

/-- Settles O46: one cell written, at the PC-relative address. -/
theorem stResult : Obligations.StResult :=
  fun r off s => ⟨_, exec_st r off s, storedOver_memWrite (.refl s) _ _⟩

/-- Settles O47: one cell written, where the pointer points, over the memory the pointer's read left. -/
theorem stiResult : Obligations.StiResult :=
  fun r off s => ⟨_, exec_sti r off s, storedOver_memWrite (keptByReads_memRead _ s) _ _⟩

/-- Settles O48: one cell written, at base plus offset. -/
theorem strResult : Obligations.StrResult :=
  fun r b off s => ⟨_, exec_str r b off s, storedOver_memWrite (.refl s) _ _⟩

end Sys2Proof.Proofs.LoadStore
end

section
/-! PROOFS. The family of spec/43_trap.md: the multiplexer and its handlers (R230 to R240). PUTS and PUTSP are one walk
with two terminators, so what a walk outputs and leaves, and when it hangs, is said once for both. -/

namespace Sys2Proof.Proofs.Trap

open Machine Claims ArchState MemoryRules

/-! ### OUT and HALT (R233, R240) -/

theorem exec_out (s : State) : exec .out s = .next (s.emit (s.reg 0#3)) := rfl

theorem exec_halt (s : State) : exec .halt s = .next (s.setRun .halted) := rfl

/-- Settles O54: OUT is one output of R0. -/
theorem outAppendsToTheTrace : Obligations.OutAppendsToTheTrace := exec_out

/-- Settles O55: HALT is one change of the run state. -/
theorem haltStopsTheBlock : Obligations.HaltStopsTheBlock := exec_halt

/-! ### The multiplexer (R231, R237) -/

/-- The multiplexer runs what the decoder names: a handled vector's handler, or the TRAP as it stands. -/
theorem exec_trap (v : Byte) (s : State) : exec (.trap v) s = exec (decodeTrap s.params v) s := by
  simp only [decodeTrap, apply_ite (exec · s)]
  simp only [exec, execTrap]
  iterate 5
    split
    case isTrue => rfl
  rfl

/-- Settles O49: under R7's constraint the decoder names each vector's handler. -/
theorem multiplexerSelectsTheHandlers : Obligations.MultiplexerSelectsTheHandlers := by
  intro s hp
  obtain ⟨hgetc, hout, hputs, hputsp, hhalt⟩ := Encoding.decodeTrap_handled hp
  simp only [exec_trap, hgetc, hout, hputs, hputsp, hhalt, true_and]
  exact ⟨exec_out s, exec_halt s⟩

/-- Settles O50: a vector that is none of the five leaves the multiplexer's last case, the fault. -/
theorem unhandledTrapFaults : Obligations.UnhandledTrapFaults := by
  intro v s hv
  simp only [Params.handledVectors] at hv
  rcases execTrap_cases v s with ⟨rfl, -⟩ | ⟨rfl, -⟩ | ⟨rfl, -⟩ | ⟨rfl, -⟩ | ⟨rfl, -⟩ | ⟨-, e⟩
  case inr.inr.inr.inr.inr => exact e
  all_goals simp at hv

/-! ### GETC (R232, R282) -/

theorem exec_getc_byte {s : State} {b : Byte} {rest : List ReadAnswer} (h : s.readAnswers = .byte b :: rest) :
    exec .getc s = .next ((s.dropRead.setWait false).setReg 0#3 (zext8 b)) := by
  simp only [exec, execGetc, h, argReg]

theorem exec_getc_unanswered {s : State} (h : s.readAnswers = []) : exec .getc s = .next (s.setWait true) := by
  simp only [exec, execGetc, h]

/-- Settles O51: the byte answered is one register write. -/
theorem getcReadsOneByte : Obligations.GetcReadsOneByte := by
  intro s b rest h
  have hrest : s.dropRead.readAnswers = rest := by rw [State.dropRead_readAnswers, h, List.tail_cons]
  refine ⟨_, exec_getc_byte h, State.reg_setReg_same _ _ _, Control.regsKeptBut_setReg _ _ _, ?_⟩
  rw [← hrest]
  rfl

/-- A Running block with a GETC waiting takes it up again, with no fetch (R282). -/
theorem step_waiting {s : State} (hr : s.run = .running) (hw : s.inputWait = true) : step s = exec .getc s := by
  simp [step, cycle, hr, hw, exec]

/-- Settles O13: the GETC taken up again without an answer sets the flag that is set. -/
theorem waitingGetcIsResumed : Obligations.WaitingGetcIsResumed := by
  intro s hr hw
  refine ⟨step_waiting hr hw, fun hno => ?_⟩
  have hsame : s.setWait true = s := by rw [← hw]; rfl
  rw [step_waiting hr hw, exec_getc_unanswered hno, hsame]

/-! ### What a trap can change (R238) -/

/-- A string trap that does not hang has the effect of its walk. -/
theorem walkEffect_of_walk_or_hang {o : Host.Outcome State Fault Refusal} {s t : State}
    (hcases : (∃ u, o = .next u ∧ WalkEffect s u) ∨ o = .fault .hang) (h : o = .next t) : WalkEffect s t := by
  rcases hcases with ⟨u, rfl, w⟩ | rfl
  · exact Host.Outcome.next.inj h ▸ w
  · exact nomatch h

/-- A trap that gives a next state is a GETC, or a string walk, or changes at most the run state and the trace. -/
theorem trap_effect {i : Instr} {s t : State} (hi : isTrap i = true) (h : exec i s = .next t) :
    ((i = .getc ∨ i = .trap s.params.tvGetc) ∧ execGetc s = .next t) ∨
    (walksString s.params i ∧ WalkEffect s t) ∨
    t = { s with run := t.run, trace := t.trace } := by
  cases i <;> simp only [exec] at h
  case getc => exact .inl ⟨.inl rfl, h⟩
  case puts => exact .inr (.inl ⟨.inl rfl, walkEffect_of_walk_or_hang (execPuts_cases s) h⟩)
  case putsp => exact .inr (.inl ⟨.inr (.inl rfl), walkEffect_of_walk_or_hang (execPutsp_cases s) h⟩)
  case out | halt => exact .inr (.inr (Host.Outcome.next.inj h ▸ rfl))
  case trap v =>
    rcases execTrap_cases v s with ⟨rfl, e⟩ | ⟨-, e⟩ | ⟨rfl, e⟩ | ⟨rfl, e⟩ | ⟨-, e⟩ | ⟨-, e⟩ <;> rw [e] at h
    · exact .inl ⟨.inr rfl, h⟩
    · exact .inr (.inr (Host.Outcome.next.inj h ▸ rfl))
    · exact .inr (.inl ⟨.inr (.inr (.inl rfl)), walkEffect_of_walk_or_hang (execPuts_cases s) h⟩)
    · exact .inr (.inl ⟨.inr (.inr (.inr rfl)), walkEffect_of_walk_or_hang (execPutsp_cases s) h⟩)
    · exact .inr (.inr (Host.Outcome.next.inj h ▸ rfl))
    · exact .inr (.inr (Host.Outcome.next.inj h ▸ rfl))
  all_goals exact nomatch hi

/-- GETC writes no register but R0. -/
theorem execGetc_keeps_regs {s t : State} (h : execGetc s = .next t) : RegsKeptBut 0#3 s t := by
  rcases execGetc_cases s with ⟨b, rest, -, e⟩ | ⟨rest, -, e⟩ | ⟨-, e⟩ <;> rw [e] at h <;>
    obtain rfl := Host.Outcome.next.inj h
  · exact Control.regsKeptBut_setReg argReg (zext8 b) (s.dropRead.setWait false)
  · exact fun _ _ => rfl
  · exact fun _ _ => rfl

/-- A string walk writes no register. -/
theorem regsKept_of_walkEffect {s t : State} (w : WalkEffect s t) : RegsKept s t := by
  obtain ⟨e, -⟩ := w
  rw [e]
  exact fun _ => rfl

/-- Settles O60, by the three things a trap can be. -/
theorem trapsChangeNothingElse : Obligations.TrapsChangeNothingElse := by
  intro i s t hi h
  rcases trap_effect hi h with ⟨hname, hgetc⟩ | ⟨hname, w⟩ | e
  · obtain ⟨hpc, hcond⟩ := execGetc_keeps_pcCond hgetc
    have hcells := execGetc_keeps_cells hgetc
    exact ⟨hcond, hpc, execGetc_keeps_regs hgetc, fun _ => hname, fun a _ _ => hcells a, fun hne => absurd hcells hne⟩
  · obtain ⟨hpc, hcond⟩ := pcCondKept_of_walkEffect w
    have hregs := regsKept_of_walkEffect w
    obtain ⟨-, -, -, hcells⟩ := w
    exact ⟨hcond, hpc, fun r _ => hregs r, fun hne => absurd (hregs 0#3) hne, hcells, fun _ => hname⟩
  · rw [e]
    exact ⟨rfl, rfl, fun _ _ => rfl, fun hne => absurd rfl hne, fun _ _ _ => rfl, fun hne => absurd (fun _ => rfl) hne⟩

/-! ### Outputs one after the other (R283) -/

/-- The words appended to the output trace, oldest first. -/
def output (ws : List Word) (s : State) : State :=
  { s with trace := s.trace ++ ws }

theorem output_nil (s : State) : output [] s = s := by simp [output]

theorem output_cons (w : Word) (ws : List Word) (s : State) : output (w :: ws) s = output ws (s.emit w) := by
  simp [output, State.emit]

theorem output_output (ws vs : List Word) (s : State) : output vs (output ws s) = output (ws ++ vs) s := by
  simp [output]

/-- A read does not look at the trace, so it commutes with outputs. -/
theorem afterRead_output (ws : List Word) (a : Word) (s : State) :
    (output ws s).afterRead a = output ws (s.afterRead a) := by
  induction ws generalizing s with
  | nil => simp only [output_nil]
  | cons w ws ih => rw [output_cons, ih, State.afterRead_emit, output_cons]

/-! ### The reads of a walk (R63, R67) -/

theorem afterReads_succ (n : Nat) (a : Word) (s : State) :
    afterReads (n + 1) a s = afterReads n (a + 1#16) (s.afterRead a) := rfl

theorem nthRead_zero (a : Word) (s : State) : nthRead 0 a s = (memRead a s).1 := by
  simp [nthRead, afterReads]

theorem nthRead_succ (n : Nat) (a : Word) (s : State) :
    nthRead (n + 1) a s = nthRead n (a + 1#16) (s.afterRead a) := by
  have haddr : a + BitVec.ofNat 16 (n + 1) = a + 1#16 + BitVec.ofNat 16 n := (add_one_add_ofNat a n).symm
  rw [nthRead, haddr]
  rfl

theorem afterReads_output (ws : List Word) (n : Nat) (a : Word) (s : State) :
    afterReads n a (output ws s) = output ws (afterReads n a s) := by
  induction n generalizing a s with
  | zero => rfl
  | succ n ih => rw [afterReads_succ, afterRead_output, ih, afterReads_succ]

theorem nthRead_output (ws : List Word) (n : Nat) (a : Word) (s : State) :
    nthRead n a (output ws s) = nthRead n a s := by
  rw [nthRead, afterReads_output, memRead_fst, afterRead_output]
  rfl

theorem afterReads_trace (n : Nat) (a : Word) (s : State) : (afterReads n a s).trace = s.trace := by
  induction n generalizing a s with
  | zero => rfl
  | succ n ih => rw [afterReads_succ, ih, State.afterRead_trace]

/-- The state a walk leaves: its reads' state, with its output on the trace. -/
theorem output_afterReads (ws : List Word) (n : Nat) (a : Word) (s : State) :
    output ws (afterReads n a s) = { afterReads n a s with trace := s.trace ++ ws } := by
  rw [output, afterReads_trace]

/-- Reads that all stay away from KBDR leave the state alone (R63). -/
theorem afterReads_plain {n : Nat} {a : Word} {s : State}
    (h : ∀ k, k < n → a + BitVec.ofNat 16 k ≠ s.params.kbdrAddr) : afterReads n a s = s := by
  induction n generalizing a with
  | zero => rfl
  | succ n ih =>
    have hfirst : a ≠ s.params.kbdrAddr := by simpa using h 0 n.succ_pos
    rw [afterReads_succ, State.afterRead_plain hfirst]
    exact ih fun k hk => by simpa only [add_one_add_ofNat] using h (k + 1) (Nat.succ_lt_succ hk)

/-- Reads that all stay away from KBDR give the cells (R63). -/
theorem nthRead_plain {n : Nat} {a : Word} {s : State}
    (h : ∀ k, k ≤ n → a + BitVec.ofNat 16 k ≠ s.params.kbdrAddr) :
    nthRead n a s = s.cell (a + BitVec.ofNat 16 n) := by
  rw [nthRead, afterReads_plain fun k hk => h k (Nat.le_of_lt hk), memRead_plain (h n (Nat.le_refl n))]

/-! ### A walk (R234 to R236) -/

/-- What the two string walks are: words are read one address after the other; one at which the string does not end
is output whole, as `full` says, and the first at which it ends is output as `last` says. -/
structure IsWalk (walk : Nat → Word → State → Option State) (ends : Word → Prop) (full last : Word → List Word) :
    Prop where
  outOfReads : ∀ a s, walk 0 a s = none
  goesOn : ∀ n a s, ¬ends (memRead a s).1 →
    walk (n + 1) a s = walk n (a + 1#16) (output (full (memRead a s).1) (s.afterRead a))
  stops : ∀ n a s, ends (memRead a s).1 → walk (n + 1) a s = some (output (last (memRead a s).1) (s.afterRead a))

/-- The output of the first `n` reads from `a` on, where the string goes on at each. -/
def outputOfReads (full : Word → List Word) (n : Nat) (a : Word) (s : State) : List Word :=
  (List.range n).flatMap fun k => full (nthRead k a s)

theorem outputOfReads_succ (full : Word → List Word) (n : Nat) (a : Word) (s : State) :
    outputOfReads full (n + 1) a s =
      full (memRead a s).1 ++ outputOfReads full n (a + 1#16) (s.afterRead a) := by
  simp [outputOfReads, List.range_succ_eq_map, List.flatMap_map, nthRead_zero, nthRead_succ]

theorem outputOfReads_output (full : Word → List Word) (ws : List Word) (n : Nat) (a : Word) (s : State) :
    outputOfReads full n a (output ws s) = outputOfReads full n a s := by
  simp only [outputOfReads, nthRead_output]

section walk
variable {walk : Nat → Word → State → Option State} {ends : Word → Prop} {full last : Word → List Word}

/-- A walk whose string ends at the read number `n`, and that may make so many reads, outputs what it has read and
leaves what the reads leave. -/
theorem IsWalk.eq_some (hwalk : IsWalk walk ends full last) {n m : Nat} (hnm : n < m) {a : Word} {s : State}
    (hgo : ∀ k, k < n → ¬ends (nthRead k a s)) (hend : ends (nthRead n a s)) :
    walk m a s = some (output (outputOfReads full n a s ++ last (nthRead n a s)) (afterReads (n + 1) a s)) := by
  obtain ⟨m, rfl⟩ : ∃ k, m = k + 1 := ⟨m - 1, by omega⟩
  induction n generalizing m a s with
  | zero =>
    rw [nthRead_zero] at hend ⊢
    exact hwalk.stops m a s hend
  | succ n ih =>
    obtain ⟨m, rfl⟩ : ∃ k, m = k + 1 := ⟨m - 1, by omega⟩
    have hfirst : ¬ends (memRead a s).1 := nthRead_zero a s ▸ hgo 0 n.succ_pos
    have hgo' : ∀ k, k < n → ¬ends (nthRead k (a + 1#16) (s.afterRead a)) :=
      fun k hk => nthRead_succ k a s ▸ hgo (k + 1) (Nat.succ_lt_succ hk)
    rw [nthRead_succ] at hend ⊢
    rw [hwalk.goesOn _ a s hfirst, ih (by simpa only [nthRead_output]) (by rwa [nthRead_output]) m (by omega)]
    simp only [nthRead_output, outputOfReads_output, afterReads_output, output_output, outputOfReads_succ,
      List.append_assoc, afterReads_succ (n + 1) a s]

/-- A walk runs out of its reads exactly when the string ends at none of them (R235). -/
theorem IsWalk.eq_none_iff (hwalk : IsWalk walk ends full last) (m : Nat) (a : Word) (s : State) :
    walk m a s = none ↔ ∀ k, k < m → ¬ends (nthRead k a s) := by
  induction m generalizing a s with
  | zero => simp [hwalk.outOfReads]
  | succ m ih =>
    rw [Nat.forall_lt_succ_left, nthRead_zero]
    by_cases hend : ends (memRead a s).1
    · simp [hwalk.stops m a s hend, hend]
    · simp [hwalk.goesOn m a s hend, hend, ih, nthRead_output, nthRead_succ]

end walk

/-- PUTS: a zero word ends the string and is not output (R234). -/
theorem isWalk_walkWords : IsWalk walkWords (· = 0#16) (fun w => [w]) (fun _ => []) where
  outOfReads _ _ := rfl
  goesOn n a s h := if_neg h
  stops n a s h := by rw [output_nil]; exact if_pos h

/-- A word of a packed string at which it ends (R236). -/
def hasZeroByte (w : Word) : Prop :=
  lowByte w = 0#8 ∨ highByte w = 0#8

/-- What PUTSP outputs of the word at which the string ends: its low byte, unless that is the zero byte (R236). -/
def packedEnd (w : Word) : List Word :=
  if lowByte w = 0#8 then [] else [zext8 (lowByte w)]

/-- PUTSP: the first zero byte, low before high, ends the string (R236). -/
theorem isWalk_walkBytes : IsWalk walkBytes hasZeroByte packed packedEnd where
  outOfReads _ _ := rfl
  goesOn n a s h := by
    obtain ⟨hlo, hhi⟩ := not_or.mp h
    rw [packed, output_cons, output_cons, output_nil]
    exact (if_neg hlo).trans (if_neg hhi)
  stops n a s h := by
    by_cases hlo : lowByte (memRead a s).1 = 0#8
    · rw [packedEnd, if_pos hlo, output_nil]
      exact if_pos hlo
    · rw [packedEnd, if_neg hlo, output_cons, output_nil]
      exact (if_neg hlo).trans (if_pos (h.resolve_left hlo))

/-! ### PUTS and PUTSP -/

theorem exec_puts (s : State) : exec .puts s = walkOutcome (walkWords walkLimit (s.reg 0#3) s) := rfl

theorem exec_putsp (s : State) : exec .putsp s = walkOutcome (walkBytes walkLimit (s.reg 0#3) s) := rfl

theorem walkOutcome_eq_hang_iff (r : Option State) : walkOutcome r = .fault .hang ↔ r = none := by
  cases r <;> simp [walkOutcome]

/-- Settles O57: the walk's output is its reads, one word each. -/
theorem putsOutputsItsReads : Obligations.PutsOutputsItsReads := by
  intro s n hn hgo hend
  have hread : outputOfReads (fun w => [w]) n (s.reg 0#3) s = (List.range n).map (nthRead · (s.reg 0#3) s) :=
    List.map_eq_flatMap.symm
  rw [exec_puts, isWalk_walkWords.eq_some (m := walkLimit) hn hgo hend, List.append_nil, hread, output_afterReads]
  rfl

/-- Settles O58: the last word adds nothing or its low byte, by which of its bytes is zero. -/
theorem putspOutputsItsReads : Obligations.PutspOutputsItsReads := by
  intro s n hn hgo
  have hgo' : ∀ k, k < n → ¬hasZeroByte (nthRead k (s.reg 0#3) s) := fun k hk => not_or.mpr (hgo k hk)
  refine ⟨fun hlo => ?_, fun hlo hhi => ?_⟩
  · rw [exec_putsp, isWalk_walkBytes.eq_some (m := walkLimit) hn hgo' (.inl hlo), packedEnd, if_pos hlo,
      List.append_nil, output_afterReads]
    rfl
  · rw [exec_putsp, isWalk_walkBytes.eq_some (m := walkLimit) hn hgo' (.inr hhi), packedEnd, if_neg hlo,
      output_afterReads, ← List.append_assoc]
    rfl

/-- Settles O59: a string trap hangs exactly when its walk runs out of reads. -/
theorem walksHangExactlyWithoutTerminator : Obligations.WalksHangExactlyWithoutTerminator := by
  intro s
  rw [exec_puts, exec_putsp, walkOutcome_eq_hang_iff, walkOutcome_eq_hang_iff, isWalk_walkWords.eq_none_iff,
    isWalk_walkBytes.eq_none_iff]
  exact ⟨.rfl, forall₂_congr fun _ _ => not_or⟩

/-- Settles O56: the case of O57 in which no read is a poll, so that every read gives the string's word. -/
theorem putsPrintsTheStoredString : Obligations.PutsPrintsTheStoredString := by
  intro s text hlen hzero htext hend haway
  have hread : ∀ k, k ≤ text.length → nthRead k (s.reg 0#3) s = s.cell (s.reg 0#3 + BitVec.ofNat 16 k) :=
    fun k hk => nthRead_plain fun j hj => haway j (Nat.le_trans hj hk)
  have hword : ∀ k (hk : k < text.length), nthRead k (s.reg 0#3) s = text[k] := fun k hk => by
    rw [hread k (Nat.le_of_lt hk), htext k hk, List.getElem_eq_getD 0]
  have hall : (List.range text.length).map (nthRead · (s.reg 0#3) s) = text :=
    List.ext_getElem (by simp) fun k _ hk => by simpa using hword k hk
  have hgo : ∀ k, k < text.length → nthRead k (s.reg 0#3) s ≠ 0#16 := fun k hk h =>
    hzero (h ▸ hword k hk ▸ List.getElem_mem hk)
  rw [putsOutputsItsReads s text.length hlen hgo ((hread _ (Nat.le_refl _)).trans hend), hall,
    afterReads_plain fun k hk => haway k (Nat.le_of_lt_succ hk)]

end Sys2Proof.Proofs.Trap
end

section
/-! PROOFS. The family of spec/44_reserved.md: opcodes 8 and 13 (R260, R261). -/

namespace Sys2Proof.Proofs.Reserved

open Machine Claims

theorem exec_rti (s : State) : exec .rti s = .next s := rfl

theorem exec_reserved (s : State) : exec .reserved s = .next s := rfl

/-- Settles O41: each opcode's meaning is the state it is given. -/
theorem reservedOpcodesAreNoOps : Obligations.ReservedOpcodesAreNoOps :=
  fun s => ⟨exec_rti s, exec_reserved s⟩

end Sys2Proof.Proofs.Reserved
end

section
/-! PROOFS. The family of spec/60_exceptions.md: a GETC that the host aborts (R284), and one that nothing answers
(R282). -/

namespace Sys2Proof.Proofs.Exceptions

open Machine Claims

theorem exec_getc_abort {s : State} {rest : List ReadAnswer} (h : s.readAnswers = .abort :: rest) :
    exec .getc s = .next ((s.dropRead.setWait false).setRun .aborted) := by
  simp only [exec, execGetc, h]

theorem exitStatus_of_aborted {s : State} (h : s.run = .aborted) : s.exitStatus = some Config.abortStatus :=
  if_pos h

theorem abortStatus_ne_zero : Config.abortStatus ≠ 0 := Nat.succ_ne_zero _

/-- Settles O52: an abort writes the run state and the model's input fields only, and the status is a successor. -/
theorem abortedGetcWritesNothing : Obligations.AbortedGetcWritesNothing := by
  intro s rest h
  have hrest : s.dropRead.readAnswers = rest := by rw [State.dropRead_readAnswers, h, List.tail_cons]
  refine ⟨_, exec_getc_abort h, ?_, exitStatus_of_aborted (State.setRun_run _ _), abortStatus_ne_zero⟩
  rw [← hrest]
  rfl

/-- Settles O53: with no answer left, GETC's whole effect is the waiting flag. -/
theorem unansweredGetcWaits : Obligations.UnansweredGetcWaits :=
  fun _ h => Trap.exec_getc_unanswered h

end Sys2Proof.Proofs.Exceptions
end

section
/-! PROOFS. The family of spec/70_reset_and_hazards.md: the launch (R300, R302), which is the reset state and then an
image load that writes cells only (R301). -/

namespace Sys2Proof.Proofs.Launch

open Machine Claims

/-- A load that is not refused changes memory and nothing else (R68, R301). -/
theorem load_ok_eq {image : List Byte} {s t : State} (h : load image s = .ok t) : t = { s with mem := t.mem } := by
  by_cases hrefused : image.length < 2 ∨ image.length % 2 = 1
  · obtain ⟨r, hr⟩ := MemoryRules.load_refused s hrefused
    rw [hr] at h
    contradiction
  · rw [MemoryRules.load_accepted s (by omega) (by omega)] at h
    cases h
    exact MemoryRules.loadWords_eq _ _ s

/-- Settles O32: the load keeps every field of the reset state but memory, so PC stays BOOT_PC. -/
theorem launchStartsAtTheBootAddress : Obligations.LaunchStartsAtTheBootAddress := by
  intro p regs cond count polls reads image s h
  have hs : s = { State.powerOn p regs cond count polls reads with mem := s.mem } := load_ok_eq h
  rw [hs]
  exact ⟨rfl, rfl, rfl, rfl, rfl⟩

end Sys2Proof.Proofs.Launch
end
